-- ==== Sys2Proof/Word.lean ====
section
/-! DEFINITION. The word types of the unit (spec/00_scope.md R4, R6, R7; spec/30_encoding.md R71). -/

namespace Sys2Proof

/-- Operand, result and command word: 64 bits, unsigned (R5, R6, R72). -/
abbrev Word := BitVec 64

/-- A product before its reduction: 128 bits, exactly twice the operand width (R4, R7). -/
abbrev DWord := BitVec 128

/-- A host transaction word of format T: 68 bits (R71). -/
abbrev TWord := BitVec 68

/-- A register index: 3 bits, so no index beyond 7 exists (R4, R50). -/
abbrev Index := BitVec 3

end Sys2Proof
end

