-- ==== Sys2Proof/Config.lean ====
section
/-! DEFINITION. The implementation parameters of the unit (spec/00_scope.md R4): the fixed ones with their values,
the OPEN ones as constants with no body. -/

namespace Sys2Proof

/-- W, the width of operands and results in bits (R4). -/
def Config.operandWidth : Nat := 64

/-- DW, the width of every product before reduction (R4). -/
def Config.productWidth : Nat := 128

/-- The width of a register index in bits: 8 locations (R4, R50). -/
def Config.indexWidth : Nat := 3

/-- The width of a command word in bits (R4, R72). -/
def Config.commandWidth : Nat := 64

/-- The width of a host transaction word in bits (R71). -/
def Config.transactionWidth : Nat := 68

/-- STEP_TIME, OPEN: the duration of the `k`-th engine step, any positive value, which may differ from step to step
(R4, R157; D21). No definition of the model reads it: the model keeps no time (log 12). That it is a positive whole number,
of a unit left unnamed, is the model's choice (log 20): the spec names neither a kind of number nor a unit. -/
opaque Config.stepTime : Nat → ℕ+

/-- An access on a platform's byte-addressed bus: outside the unit, seen only by the platform's wrapper (R60). Its four
fields are the model's choice (log 19). -/
structure BusAccess where
  write : Bool
  address : Nat
  /-- how many bytes the access moves -/
  size : Nat
  /-- the bytes of a write, the one at the lowest address first -/
  bytes : List (BitVec 8)
  deriving DecidableEq, Repr

/-- HOST_WRAPPER, OPEN: the whole-word transactions a platform's wrapper presents to the unit at the last of the bus
accesses so far, the oldest first (R4, R60; D9). It may buffer: what it presents may depend on every earlier access, and may
be nothing or several words. That it depends on the accesses alone is the model's choice (log 19). It is outside the unit:
`step` does not read it (log 13). -/
opaque Config.hostWrapper : List BusAccess → List TWord

end Sys2Proof
end

