-- ==== Sys2Proof/Syntax.lean ====
section
/-! DEFINITION. What the unit decodes: the eight locations of the register space, the two commands, and `Instr`, one
constructor per row of spec/opcode_table.json. -/

namespace Sys2Proof

/-- The eight locations of the register space, index 0 to 7 in this order (spec/20_memory.md R50). -/
inductive Loc where
  /-- index 0: N of ISPRIME, BASE of MODEXP (x[0]) -/
  | op0
  /-- index 1: EXP (x[1]) -/
  | op1
  /-- index 2: MOD (x[2]) -/
  | op2
  /-- index 3: the command port, write-only -/
  | cmd
  /-- index 4: STATUS, read-only -/
  | status
  /-- index 5: RES (x[3]), read-only -/
  | res
  /-- index 6: CAUSE, read-only -/
  | cause
  /-- index 7: reads 0, writes dropped (R76) -/
  | reserved
  deriving DecidableEq, Repr

/-- The two commands of format C (spec/30_encoding.md R73). -/
inductive Command where
  | isprime
  | modexp
  deriving DecidableEq, Repr

/-- The instructions: the two commands (format C) and the two host transactions (format T)
(spec/30_encoding.md R70, R71, R73). -/
inductive Instr where
  /-- the command ISPRIME (R90), as issued by `wr CMD, 0x1` -/
  | isprime
  /-- the command MODEXP (R110), as issued by `wr CMD, 0x2` -/
  | modexp
  /-- the host write `MemWrite(idx, 8, data)` (R52) -/
  | wr (loc : Loc) (data : Word)
  /-- the host read `MemRead(idx, 8)` (R51); `data` are the 64 ignored bits of its word (R71) -/
  | rd (loc : Loc) (data : Word)
  deriving DecidableEq, Repr

/-- A command as an instruction. -/
def Command.instr : Command → Instr
  | .isprime => .isprime
  | .modexp => .modexp

end Sys2Proof
end

