-- ==== Sys2Proof/WellFormed.lean ====
section
/-! DEFINITION. Well-formedness. Every term of `Instr` is legal: the types of its fields admit exactly the values the
formats have, and format T has no illegal and no reserved encoding (spec/30_encoding.md R71). The one check there is to
make is the canonical form of a read, whose ignored data bits are 0 (R71, R79). -/

namespace Sys2Proof

/-- The canonical form, which the script notation of R79 writes: a `rd` has data 0. A `rd` that is not canonical is still
a legal transaction, decoded and executed like any other (R71). -/
def Instr.canonical : Instr → Bool
  | .isprime => true
  | .modexp => true
  | .wr _ _ => true
  | .rd _ data => data == 0#64

end Sys2Proof
end

