-- ==== Sys2Proof/Decode.lean ====
section
/-! DEFINITION. The decoder of the two levels, total, and the encoder (spec/30_encoding.md R70 to R77). -/

namespace Sys2Proof

/-- Why a word is rejected, by name. -/
inductive DecodeError where
  /-- an illegal command word: neither `0x1` nor `0x2` (R75) -/
  | illegalCommand (w : Word)
  /-- a value that does not fit the format's width -/
  | tooWide (nbits w : Nat)
  /-- no format of the unit has this width (R77) -/
  | noFormat (nbits : Nat)
  deriving DecidableEq, Repr

/-- A word of either format (R70). -/
inductive Encoded where
  /-- format C, 64 bits (R72) -/
  | c (w : Word)
  /-- format T, 68 bits (R71) -/
  | t (w : TWord)
  deriving DecidableEq, Repr

/-- A row of spec/opcode_table.json. -/
structure TableRow where
  mnemonic : String
  width : Nat
  matchWord : Nat
  mask : Nat
  deriving DecidableEq, Repr

/-- The mask of both rows of the opcode map (R73). -/
def commandMask : Word := 0xFFFFFFFFFFFFFFFF#64

/-- ISPRIME's match (R73). -/
def isprimeWord : Word := 0x0000000000000001#64

/-- MODEXP's match (R73). -/
def modexpWord : Word := 0x0000000000000002#64

/-- The location a 3-bit index names (R50). -/
def Loc.ofIndex (b : Index) : Loc :=
  match b.toNat with
  | 0 => .op0
  | 1 => .op1
  | 2 => .op2
  | 3 => .cmd
  | 4 => .status
  | 5 => .res
  | 6 => .cause
  | _ => .reserved

/-- The index of a location (R50). -/
def Loc.index : Loc → Index
  | .op0 => 0#3
  | .op1 => 1#3
  | .op2 => 2#3
  | .cmd => 3#3
  | .status => 4#3
  | .res => 5#3
  | .cause => 6#3
  | .reserved => 7#3

/-- Level C: a word is a command iff it equals the row's match under the row's mask; every other word is illegal
(R72, R73, R75). -/
def decodeC (w : Word) : Except DecodeError Command :=
  if w &&& commandMask = isprimeWord then .ok .isprime
  else if w &&& commandMask = modexpWord then .ok .modexp
  else .error (.illegalCommand w)

/-- Bit 67 of a T word: 1 = write (R71). -/
def tWe (w : TWord) : Bool := w.getLsbD 67

/-- Bits 66:64 of a T word: the index (R71). -/
def tIdx (w : TWord) : Index := w.extractLsb' 64 3

/-- Bits 63:0 of a T word: the data (R71). -/
def tData (w : TWord) : Word := w.extractLsb' 0 64

/-- Level T: every 68-bit word is a transaction (R71). -/
def decodeT (w : TWord) : Instr :=
  if tWe w then .wr (Loc.ofIndex (tIdx w)) (tData w) else .rd (Loc.ofIndex (tIdx w)) (tData w)

/-- The decoder over both formats. -/
def decode : Encoded → Except DecodeError Instr
  | .c w => (decodeC w).map Command.instr
  | .t w => .ok (decodeT w)

/-- The decoder on a number of `nbits` bits, bit 0 least significant: 64 bits are a command word, 68 bits (72 in whole
bytes) a transaction word; nothing else is a format (R77; log 16). -/
def decodeBits (nbits w : Nat) : Except DecodeError Instr :=
  match nbits with
  | 64 => if w < 2 ^ 64 then decode (.c (BitVec.ofNat 64 w)) else .error (.tooWide nbits w)
  | 68 => if w < 2 ^ 68 then decode (.t (BitVec.ofNat 68 w)) else .error (.tooWide nbits w)
  | 72 => if w < 2 ^ 68 then decode (.t (BitVec.ofNat 68 w)) else .error (.tooWide nbits w)
  | _ => .error (.noFormat nbits)

/-- The instruction the decoder reads from a word numbered as spec/opcode_table.json numbers it. -/
def decodeTableWord (nbits w : Nat) : Option Instr :=
  match decodeBits nbits w with
  | .ok i => some i
  | .error _ => none

/-- A T word from its three fields, `T = {we, idx[2:0], data[63:0]}` (R71). -/
def tWord (we : Bool) (loc : Loc) (data : Word) : TWord :=
  (BitVec.ofBool we ++ loc.index ++ data : BitVec (1 + 3 + 64))

/-- The encoder: commands in format C, transactions in format T (R71, R73). -/
def encode : Instr → Encoded
  | .isprime => .c isprimeWord
  | .modexp => .c modexpWord
  | .wr loc data => .t (tWord true loc data)
  | .rd loc data => .t (tWord false loc data)

/-- The number of bits of an encoded word (R77). -/
def Encoded.width : Encoded → Nat
  | .c _ => Config.commandWidth
  | .t _ => Config.transactionWidth

/-- An encoded word as a number, bit 0 least significant. -/
def Encoded.toNat : Encoded → Nat
  | .c w => w.toNat
  | .t w => w.toNat

/-- The opcode-table row of an instruction (spec/opcode_table.json). -/
def Instr.row : Instr → TableRow
  | .isprime => ⟨"isprime", 64, 0x0000000000000001, 0xFFFFFFFFFFFFFFFF⟩
  | .modexp => ⟨"modexp", 64, 0x0000000000000002, 0xFFFFFFFFFFFFFFFF⟩
  | .wr _ _ => ⟨"wr", 68, 0x80000000000000000, 0x80000000000000000⟩
  | .rd _ _ => ⟨"rd", 68, 0x00000000000000000, 0x80000000000000000⟩

end Sys2Proof
end

