-- ==== Sys2Proof/Machine/State.lean ====
section
/-! DEFINITION. The state of the machine: the unit's twelve elements (spec/10_state.md R20) and, apart from them, the
model's own two fields for the host side; the reasons a step can stop; the state after reset. -/

namespace Sys2Proof.Machine

/-- PHASE, exactly one of six values; its bit encoding is not observable (R25; log 8). -/
inductive Phase where
  | idle
  | tdStart
  | tdLoop
  | meStart
  | meLoop
  | faulted
  deriving DecidableEq, Repr

/-- The two faults of the UNIT (spec/60_exceptions.md R130). Taking one is a next state (R134), never a stop. -/
inductive UnitFault where
  /-- cause code 1: MODEXP started with x[2] = 0 (R131) -/
  | modZero
  /-- cause code 2: a word that is not a command written to CMD while IDLE (R132) -/
  | illegalCmd
  deriving DecidableEq, Repr

/-- One turn of the schedule: which transition of R14 happens (log 1). -/
inductive Turn where
  /-- the host presents a transaction word of format T (R71) -/
  | host (t : TWord)
  /-- the engine may take its step (R13) -/
  | engine
  /-- reset is asserted (R150) -/
  | reset
  deriving DecidableEq, Repr

/-- Why a step stops without a next state. -/
inductive Fault where
  /-- Raised by an engine step that would evaluate a remainder by 0, which the spec says the unit never does and to which
  it gives no value (spec/00_scope.md R8). Safe: the model stops and invents no value. No state that satisfies the
  invariant of R38 raises it, so none reachable from reset (log 7). -/
  | remainderByZero
  deriving DecidableEq, Repr

/-- Why an instruction is refused. -/
inductive Refusal where
  /-- Raised by an arm of `exec` whose instruction has no meaning yet, by its mnemonic. No arm does. Safe. -/
  | notModelled (mnemonic : String)
  deriving DecidableEq, Repr

/-- The twelve elements of R20, then the model's own `pending` and `answers`. -/
structure State where
  /-- x[0], OP0: N of ISPRIME, BASE of MODEXP (R21) -/
  x0 : Word
  /-- x[1], OP1: EXP (R21) -/
  x1 : Word
  /-- x[2], OP2: MOD (R21) -/
  x2 : Word
  /-- x[3], RES (R22) -/
  x3 : Word
  /-- PHASE (R25) -/
  phase : Phase
  /-- DONE (R28) -/
  done : Bool
  /-- WDROP, sticky (R32) -/
  wdrop : Bool
  /-- CAUSE, the stored 2-bit code (R34) -/
  cause : BitVec 2
  /-- ACC, hidden: the running product (R35) -/
  acc : Word
  /-- SQ, hidden: the running square of the base (R35) -/
  sq : Word
  /-- E, hidden: the exponent bits not yet consumed (R35) -/
  e : Word
  /-- I, hidden: the current trial divisor (R35) -/
  i : Word
  /-- the MODEL's own: the turns still to come, in the order of R61 (log 1) -/
  pending : List Turn
  /-- the MODEL's own: what the host's reads were answered, newest first (R71; log 4) -/
  answers : List Word
  deriving DecidableEq, Repr

/-- The state after reset: every element as R37 gives it; no turn to come and no answer given (log 1, log 4). -/
def State.reset : State where
  x0 := 0#64
  x1 := 0#64
  x2 := 0#64
  x3 := 0#64
  phase := .idle
  done := false
  wdrop := false
  cause := 0#2
  acc := 0#64
  sq := 0#64
  e := 0#64
  i := 0#64
  pending := []
  answers := []

end Sys2Proof.Machine
end

