-- ==== Sys2Proof/Machine/Flags.lean ====
section
/-! DEFINITION. The status bits, the two read-only words they make, and the level outputs (spec/10_state.md R25 to R34;
spec/60_exceptions.md R130, R139). The unit has no arithmetic flag (R30). -/

namespace Sys2Proof.Machine

/-- BUSY as a function of PHASE (R25, R27). -/
def Phase.busy : Phase → Bool
  | .idle => false
  | .tdStart => true
  | .tdLoop => true
  | .meStart => true
  | .meLoop => true
  | .faulted => false

/-- FAULT as a function of PHASE (R25, R31). -/
def Phase.fault : Phase → Bool
  | .idle => false
  | .tdStart => false
  | .tdLoop => false
  | .meStart => false
  | .meLoop => false
  | .faulted => true

/-- BUSY (R27). -/
def State.busy (s : State) : Bool := s.phase.busy

/-- FAULT (R31). -/
def State.faultBit (s : State) : Bool := s.phase.fault

/-- The cause code of a fault (R34, R130). -/
def UnitFault.code : UnitFault → BitVec 2
  | .modZero => 1#2
  | .illegalCmd => 2#2

/-- What a read of STATUS returns: `{0[59:0], WDROP, FAULT, DONE, BUSY}` (R26). -/
def statusWord (s : State) : Word :=
  (0#60 ++ BitVec.ofBool s.wdrop ++ BitVec.ofBool s.faultBit ++ BitVec.ofBool s.done ++ BitVec.ofBool s.busy :
    BitVec (60 + 1 + 1 + 1 + 1))

/-- What a read of CAUSE returns: the stored code, zero-extended (R34). -/
def causeWord (s : State) : Word := s.cause.setWidth 64

/-- The level output `busy` = STATUS.BUSY (R139). -/
def busyOutput (s : State) : Bool := (statusWord s).getLsbD 0

/-- The level output `done` = STATUS.DONE (R139). -/
def doneOutput (s : State) : Bool := (statusWord s).getLsbD 1

/-- The level output `fault` = STATUS.FAULT (R139). -/
def faultOutput (s : State) : Bool := (statusWord s).getLsbD 2

end Sys2Proof.Machine
end

