-- ==== Sys2Proof/Machine/Operands.lean ====
section
/-! DEFINITION. The operands of the two commands (spec/30_encoding.md R74) and the arithmetic every step uses
(spec/00_scope.md R5 to R11). -/

namespace Sys2Proof.Machine

/-- `n` of ISPRIME is x[0] (R74). -/
abbrev operandN (s : State) : Word := s.x0

/-- `base` of MODEXP is x[0] (R74). -/
abbrev operandBase (s : State) : Word := s.x0

/-- `exp` of MODEXP is x[1] (R74). -/
abbrev operandExp (s : State) : Word := s.x1

/-- `modulus` of MODEXP is x[2] (R74). -/
abbrev operandModulus (s : State) : Word := s.x2

/-- `zext_128` (spec/00_scope.md section 6). -/
def zext128 (w : Word) : DWord := w.setWidth 128

/-- The exact product `zext_128(a) * zext_128(b)` (R7). -/
def product (a b : Word) : DWord := zext128 a * zext128 b

/-- The comparison `p > n` of a product with a 64-bit value, made in 128 bits (R10, R94). -/
def exceeds (p : DWord) (n : Word) : Bool := zext128 n < p

/-- `v mod m` narrowed to 64 bits, for `m >= 1` (R8). -/
def remainder (v : DWord) (m : Word) : Word := (v % zext128 m).setWidth 64

/-- `E >> 1`, the logical shift by one place (R9). -/
def shiftRight1 (w : Word) : Word := w >>> 1

/-- `E[0]`, the current bit of the exponent (R9). -/
def bit0 (w : Word) : Bool := w.getLsbD 0

/-- `I + 2`, the only addition of the unit (R11). -/
def nextDivisor (w : Word) : Word := w + 2#64

/-- The Boolean result as a 64-bit word: true = 1, false = 0 (R4, R22; D24). -/
def boolResult (b : Bool) : Word := if b then 1#64 else 0#64

/-- Continue with `v mod m`. Where `m = 0` the spec gives no value and says the case is never evaluated: stop (R8; log 7). -/
def withRemainder (v : DWord) (m : Word) (k : Word → Host.Outcome State Fault Refusal) :
    Host.Outcome State Fault Refusal :=
  if m = 0#64 then .fault .remainderByZero else k (remainder v m)

end Sys2Proof.Machine
end

