-- ==== Sys2Proof/Machine/Ops.lean ====
section
/-! DEFINITION. The shared operations: reading and writing the register space (spec/20_memory.md R51, R52), accepting a
command (spec/30_encoding.md R78), taking a fault (spec/60_exceptions.md R134), completing an operation
(spec/10_state.md R29), reset (spec/70_reset_and_hazards.md R150), and fetching the next turn. -/

namespace Sys2Proof.Machine

/-- `raise <Fault>(code)`: PHASE and CAUSE together, nothing else; nothing is saved, control goes nowhere (R134). There is
no return from a fault: the one way out is `resetUnit` (R136). -/
def raise (f : UnitFault) (s : State) : State := { s with phase := .faulted, cause := f.code }

/-- `complete(v)`: RES, DONE and PHASE together, nothing else (R29). -/
def complete (v : Word) (s : State) : State := { s with x3 := v, done := true, phase := .idle }

/-- Reset: every element of the unit to its value of R37 (R150). The turns to come and the answers already given are the
host's, not the unit's: they stay (log 17). -/
def resetUnit (s : State) : State := { State.reset with pending := s.pending, answers := s.answers }

/-- The PHASE in which an accepted command starts (R78). -/
def Command.startPhase : Command → Phase
  | .isprime => .tdStart
  | .modexp => .meStart

/-- Acceptance of a command: DONE and PHASE together, nothing else; no operand is examined (R78). -/
def accept (c : Command) (s : State) : State := { s with done := false, phase := Command.startPhase c }

/-- `command(v)`: a legal word is accepted, every other word raises ILLEGAL_CMD (R78). -/
def command (v : Word) (s : State) : State :=
  match decodeC v with
  | .ok c => accept c s
  | .error _ => raise .illegalCmd s

/-- The dispatch of a host write on PHASE: dropped while FAULTED, dropped with WDROP set while BUSY, done while IDLE
(R52, R56, R57). -/
def writeGate (whenIdle : State → State) (s : State) : State :=
  if s.phase = .faulted then s
  else if s.busy then { s with wdrop := true }
  else whenIdle s

/-- What a write does while IDLE, by location (R53, R54, R55). -/
def writeIdle (loc : Loc) (v : Word) (s : State) : State :=
  match loc with
  | .op0 => { s with x0 := v }
  | .op1 => { s with x1 := v }
  | .op2 => { s with x2 := v }
  | .cmd => command v s
  | .status => s
  | .res => s
  | .cause => s
  | .reserved => s

/-- `MemWrite(idx, 8, v)` (R52). -/
def memWrite (loc : Loc) (v : Word) (s : State) : State := writeGate (writeIdle loc v) s

/-- `MemRead(idx, 8)`, in every PHASE (R51). -/
def memRead (loc : Loc) (s : State) : Word :=
  match loc with
  | .op0 => s.x0
  | .op1 => s.x1
  | .op2 => s.x2
  | .cmd => 0#64
  | .status => statusWord s
  | .res => s.x3
  | .cause => causeWord s
  | .reserved => 0#64

/-- The unit answers a read: the host has one more answer (R71; log 4). -/
def answer (v : Word) (s : State) : State := { s with answers := v :: s.answers }

/-- Issuing a command: a host write of its word to CMD, so dropped in every PHASE but IDLE (R54, R80; log 6). -/
def issue (c : Command) (s : State) : State := writeGate (accept c) s

/-- The next turn and the state with that turn taken off the schedule; none when no turn is left (log 1). -/
def nextTurn (s : State) : Option (Turn × State) :=
  match s.pending with
  | [] => none
  | t :: rest => some (t, { s with pending := rest })

/-- The turn that presents a word numbered as spec/opcode_table.json numbers it: a command word is the data of a write to
CMD (R70, R80), a transaction word is itself (log 5). None for a number that is no word of the unit, being too wide or of
another length than 64, 68 or, in whole bytes, 72 bits: that nothing is presented for it is the model's choice (log 16). -/
def tableTurn (nbits w : Nat) : Option Turn :=
  match nbits with
  | 64 => if w < 2 ^ 64 then some (.host (tWord true .cmd (BitVec.ofNat 64 w))) else none
  | 68 => if w < 2 ^ 68 then some (.host (BitVec.ofNat 68 w)) else none
  | 72 => if w < 2 ^ 68 then some (.host (BitVec.ofNat 68 w)) else none
  | _ => none

end Sys2Proof.Machine
end

