-- ==== Sys2Proof/Machine/Isprime.lean ====
section
/-! DEFINITION. ISPRIME: its issue and its engine steps (spec/40_isprime.md R90 to R99). -/

namespace Sys2Proof.Machine

/-- ISPRIME is issued by `wr CMD, 0x1`: accepted while IDLE, DONE <- 0 and PHASE <- TD_START (R91). -/
def execIsprime (s : State) : Host.Outcome State Fault Refusal := .next (issue .isprime s)

/-- The engine step in PHASE TD_START (R92). -/
def stepTdStart (s : State) : Host.Outcome State Fault Refusal :=
  let n := operandN s
  if n < 2#64 then .next (complete (boolResult false) s)
  else if n = 2#64 then .next (complete (boolResult true) s)
  else if bit0 n = false then .next (complete (boolResult false) s)
  else .next { s with i := 3#64, phase := .tdLoop }

/-- The engine step in PHASE TD_LOOP: the bound test first, then the divisibility test (R93, R94). -/
def stepTdLoop (s : State) : Host.Outcome State Fault Refusal :=
  let n := operandN s
  if exceeds (product s.i s.i) n then .next (complete (boolResult true) s)
  else withRemainder (zext128 n) s.i fun r =>
    if r = 0#64 then .next (complete (boolResult false) s)
    else .next { s with i := nextDivisor s.i }

end Sys2Proof.Machine
end

