-- ==== Sys2Proof/Machine/Modexp.lean ====
section
/-! DEFINITION. MODEXP: its issue and its engine steps (spec/41_modexp.md R110 to R119). -/

namespace Sys2Proof.Machine

/-- MODEXP is issued by `wr CMD, 0x2`: accepted while IDLE, DONE <- 0 and PHASE <- ME_START (R111). -/
def execModexp (s : State) : Host.Outcome State Fault Refusal := .next (issue .modexp s)

/-- The engine step in PHASE ME_START: modulus 0 faults, modulus 1 completes with 0, else the loop is set up (R112). -/
def stepMeStart (s : State) : Host.Outcome State Fault Refusal :=
  let m := operandModulus s
  if m = 0#64 then .next (raise .modZero s)
  else if m = 1#64 then .next (complete 0#64 s)
  else .next { s with acc := 1#64, sq := remainder (zext128 (operandBase s)) m, e := operandExp s, phase := .meLoop }

/-- The engine step in PHASE ME_LOOP: every right-hand side is of the state before the step (R113). -/
def stepMeLoop (s : State) : Host.Outcome State Fault Refusal :=
  let m := operandModulus s
  if s.e = 0#64 then .next (complete s.acc s)
  else withRemainder (product s.acc s.sq) m fun multiplied =>
    withRemainder (product s.sq s.sq) m fun squared =>
      .next { s with acc := if bit0 s.e then multiplied else s.acc, sq := squared, e := shiftRight1 s.e }

end Sys2Proof.Machine
end

