-- ==== Sys2Proof/Machine/Transaction.lean ====
section
/-! DEFINITION. The two host transactions (spec/20_memory.md R51, R52; spec/30_encoding.md R71). -/

namespace Sys2Proof.Machine

/-- `wr`: `MemWrite(idx, 8, data)` (R52). -/
def execWr (loc : Loc) (data : Word) (s : State) : Host.Outcome State Fault Refusal := .next (memWrite loc data s)

/-- `rd`: the unit answers `MemRead(idx, 8)` and no element of it changes; the data bits are ignored (R51, R71). -/
def execRd (loc : Loc) (s : State) : Host.Outcome State Fault Refusal := .next (answer (memRead loc s) s)

end Sys2Proof.Machine
end

