-- ==== Sys2Proof/Machine/Dispatch.lean ====
section
/-! DEFINITION. One arm per constructor of Instr. -/

namespace Sys2Proof.Machine

def exec (i : Instr) (s : State) : Host.Outcome State Fault Refusal :=
  match i with
  | .isprime => Sys2Proof.Machine.execIsprime s
  | .modexp => Sys2Proof.Machine.execModexp s
  | .wr loc data => Sys2Proof.Machine.execWr loc data s
  | .rd loc _ => Sys2Proof.Machine.execRd loc s

end Sys2Proof.Machine
end

