-- ==== Sys2Proof/Machine/Engine.lean ====
section
/-! DEFINITION. The engine: one micro-step, chosen by PHASE (spec/00_scope.md R13; spec/10_state.md R25). -/

namespace Sys2Proof.Machine

/-- One engine step. In IDLE and FAULTED the engine has none: nothing changes (R13, R159; log 3). -/
def engineStep (s : State) : Host.Outcome State Fault Refusal :=
  match s.phase with
  | .idle => .next s
  | .tdStart => stepTdStart s
  | .tdLoop => stepTdLoop s
  | .meStart => stepMeStart s
  | .meLoop => stepMeLoop s
  | .faulted => .next s

end Sys2Proof.Machine
end

