-- ==== Sys2Proof/Machine/Step.lean ====
section
/-! DEFINITION. One step: one transition of spec/00_scope.md R14. -/

namespace Sys2Proof.Machine

/-- One transition: the next turn of the schedule, or, when none is left, the engine's (R14, R61, R158; log 1, log 2). -/
def step (s : State) : Host.Outcome State Fault Refusal :=
  match nextTurn s with
  | none => engineStep s
  | some (.host t, u) => exec (decodeT t) u
  | some (.engine, u) => engineStep u
  | some (.reset, u) => .next (resetUnit u)

/-- `s` with the instruction of word `w` as the very next turn (log 5); `s` itself where `w` is no word of the unit, by its
length or its width (the model's choice, log 16). -/
def State.withFetchWord (s : State) (nbits w : Nat) : State :=
  { s with pending := (tableTurn nbits w).toList ++ s.pending }

end Sys2Proof.Machine
end

