-- ==== Sys2Proof/Machine/Script.lean ====
section
/-! DEFINITION. The host script notation and the pseudo-instructions (spec/30_encoding.md R79, R80), as turns of a
schedule. The host's loops and variables are the host's, not the unit's: `wait` stands here unfolded (log 14). -/

namespace Sys2Proof.Machine

/-- The register names of the script notation (R79). -/
inductive RegName where
  | OP0 | N | BASE | OP1 | EXP | OP2 | MOD | CMD | STATUS | RES | CAUSE
  /-- `r0` to `r7`: the index -/
  | r (idx : Index)
  deriving DecidableEq, Repr

/-- The location a name stands for (R79). -/
def RegName.loc : RegName → Loc
  | .OP0 => .op0
  | .N => .op0
  | .BASE => .op0
  | .OP1 => .op1
  | .EXP => .op1
  | .OP2 => .op2
  | .MOD => .op2
  | .CMD => .cmd
  | .STATUS => .status
  | .RES => .res
  | .CAUSE => .cause
  | .r idx => Loc.ofIndex idx

/-- A line of a host script: the two transactions of R79, the two one-line pseudo-instructions of R80. -/
inductive ScriptLine where
  | wr (reg : RegName) (value : Word)
  | rd (reg : RegName)
  | isprime
  | modexp
  deriving DecidableEq, Repr

/-- The T word of a line: `wr` is `{1, idx, value}`, `rd` is `{0, idx, 0}`, `isprime` is `wr CMD, 0x1`, `modexp` is
`wr CMD, 0x2` (R79, R80). -/
def ScriptLine.word : ScriptLine → TWord
  | .wr reg value => tWord true reg.loc value
  | .rd reg => tWord false reg.loc 0#64
  | .isprime => tWord true .cmd isprimeWord
  | .modexp => tWord true .cmd modexpWord

/-- A line as a turn. -/
def ScriptLine.turn (l : ScriptLine) : Turn := .host l.word

/-- `wait` unfolded: STATUS is read once per entry of `gaps`, each time after that many engine turns (R80; log 14). -/
def waitTurns : List Nat → List Turn
  | [] => []
  | g :: gaps => List.replicate g Turn.engine ++ ScriptLine.turn (.rd .STATUS) :: waitTurns gaps

/-- `call is_prime(n)` (R80). -/
def callIsPrime (n : Word) (gaps : List Nat) : List Turn :=
  ScriptLine.turn (.wr .N n) :: ScriptLine.turn .isprime :: (waitTurns gaps ++ [ScriptLine.turn (.rd .RES)])

/-- `call mod_exp(b, e, m)` (R80). -/
def callModExp (b e m : Word) (gaps : List Nat) : List Turn :=
  ScriptLine.turn (.wr .BASE b) :: ScriptLine.turn (.wr .EXP e) :: ScriptLine.turn (.wr .MOD m) ::
    ScriptLine.turn .modexp ::
    (waitTurns gaps ++ [ScriptLine.turn (.rd .STATUS), ScriptLine.turn (.rd .RES)])

end Sys2Proof.Machine
end

