-- ==== Sys2Proof/Machine/Wrapper.lean ====
section
/-! DEFINITION. Outside the unit: how a platform's bus wrapper presents accesses to it (spec/20_memory.md R60). -/

namespace Sys2Proof.Machine

/-- The value of a sequence of bytes, the first the least significant: little-endian (R60). -/
def littleEndian : List (BitVec 8) → Nat
  | [] => 0
  | b :: rest => b.toNat + 256 * littleEndian rest

/-- The wrapper R60 recommends and does not require: byte offset `8 * idx` from a base, little-endian, aligned 64-bit
accesses only, every other access refused without reaching the unit. The alignment of the base is not stated and no base is
shut out: at a base that is no multiple of 8 no naturally aligned access has an offset `8 * idx`, so all are refused (log 21).
A write of other than eight bytes is no 64-bit access and is refused (log 21). -/
def recommendedWrapper (base : Nat) (a : BusAccess) : Option TWord :=
  if base ≤ a.address ∧ a.address < base + 64 ∧ a.address % 8 = 0 ∧ (a.address - base) % 8 = 0 ∧ a.size = 8 ∧
      (a.write = true → a.bytes.length = 8) then
    some (tWord a.write (Loc.ofIndex (BitVec.ofNat 3 ((a.address - base) / 8)))
      (if a.write then BitVec.ofNat 64 (littleEndian a.bytes) else 0#64))
  else none

/-- The recommended wrapper as one that sees the accesses so far: it looks at the last alone and does not buffer (R60). -/
def recommendedHostWrapper (base : Nat) (accesses : List BusAccess) : List TWord :=
  match accesses.getLast? with
  | none => []
  | some a => (recommendedWrapper base a).toList

/-- A bus access `a` after the accesses `earlier`: the whole-word transactions the wrapper presents at it come after those
already to come, in their order (R61); an access at which it presents none does not reach the unit (R60). That they come back
to back, after every engine and reset turn already to come and with none between them, is the model's choice (log 23): the spec
leaves open which transitions fall before and between them (R14, R157). -/
def presentAccess (wrapper : List BusAccess → List TWord) (earlier : List BusAccess) (a : BusAccess) (s : State) : State :=
  { s with pending := s.pending ++ (wrapper (earlier ++ [a])).map Turn.host }

/-- The access as the platform's own wrapper, the OPEN parameter HOST_WRAPPER, presents it (R60; log 13, log 19). -/
def presentPlatformAccess (earlier : List BusAccess) (a : BusAccess) (s : State) : State :=
  presentAccess Config.hostWrapper earlier a s

end Sys2Proof.Machine
end

