-- ==== Sys2Proof/Safety.lean ====
section
/-! DEFINITION. Runs, the states that can occur, and what counts as a run that went well (spec/10_state.md R38;
spec/70_reset_and_hazards.md R153 to R159). -/

namespace Sys2Proof.Machine

/-- `k` transitions, stopping at the first that gives no next state. -/
def run : Nat → State → Host.Outcome State Fault Refusal
  | 0, s => .next s
  | k + 1, s =>
    match step s with
    | .next t => run k t
    | .fault f => .fault f
    | .refused r => .refused r

/-- The unit alone: the state with the model's two fields for the host side blanked. -/
def State.unit (s : State) : State := { s with pending := [], answers := [] }

/-- The schedule with the turns `ts` to come. -/
def State.withTurns (s : State) (ts : List Turn) : State := { s with pending := ts }

/-- The engine's transition is the next one of `s`, and `u` is the state it acts on: either its turn is the next of the
schedule, or no turn is left. -/
def EngineNext (s u : State) : Prop :=
  (s.pending = [] ∧ u = s) ∨ ∃ rest, s.pending = Turn.engine :: rest ∧ u = { s with pending := rest }

/-- The next transition of `s` is the host transaction `w`, and `u` is the state it acts on. -/
def HostNext (s : State) (w : TWord) (u : State) : Prop :=
  ∃ rest, s.pending = Turn.host w :: rest ∧ u = { s with pending := rest }

/-- The next transition of `s` is reset. -/
def ResetNext (s : State) : Prop := ∃ rest, s.pending = Turn.reset :: rest

/-- A turn that is a host read: bit 67 of its word is 0 (R71). -/
def Turn.isRead : Turn → Bool
  | .host w => !tWe w
  | .engine => false
  | .reset => false

/-- The unit is quiescent: PHASE is IDLE or FAULTED (R159). -/
def State.quiescent (s : State) : Bool := !s.busy

/-- RES is the result of the last command: BUSY = 0, FAULT = 0, DONE = 1 (R153, R155). -/
def State.resultReady (s : State) : Bool := !s.busy && !s.faultBit && s.done

/-- A turn that is the engine's, neither a host transaction nor reset. -/
def Turn.isEngine : Turn → Bool
  | .host _ => false
  | .engine => true
  | .reset => false

/-- The host has issued its last transaction: no host transaction is left on the schedule (R159), nor a reset, which is an
input of the host side too (R13; log 22). -/
def State.hostDone (s : State) : Bool := s.pending.all Turn.isEngine

/-- The end of a run of a host program: the host has issued its last transaction and the unit is quiescent (R159). -/
def State.ended (s : State) : Bool := s.hostDone && s.quiescent

/-- The end of a run that went well: ended, with FAULT = 0 and WDROP = 0 (R159). -/
def State.endedWell (s : State) : Bool := s.ended && !s.faultBit && !s.wdrop

/-- R38: what holds in every state reachable from reset. -/
abbrev State.Inv (s : State) : Prop :=
  (¬ (s.busy = true ∧ s.faultBit = true)) ∧
  (s.done = true → s.phase = .idle ∨ s.phase = .faulted) ∧
  (s.cause ≠ 0#2 ↔ s.phase = .faulted) ∧
  (s.cause = 1#2 → s.done = false) ∧
  (s.phase = .tdLoop →
    s.x0.toNat % 2 = 1 ∧ 3 ≤ s.x0.toNat ∧ s.i.toNat % 2 = 1 ∧ 3 ≤ s.i.toNat ∧ s.i.toNat ≤ 2 ^ 32 + 1) ∧
  (s.phase = .meLoop → 2 ≤ s.x2.toNat ∧ s.acc.toNat < s.x2.toNat ∧ s.sq.toNat < s.x2.toNat)

/-- R115: the running product and square still make the power asked for. -/
def State.PowerInv (s : State) : Prop :=
  s.phase = .meLoop →
    2 ≤ s.x2.toNat ∧ s.acc.toNat < s.x2.toNat ∧ s.sq.toNat < s.x2.toNat ∧
    (s.acc.toNat * s.sq.toNat ^ s.e.toNat) % s.x2.toNat = (s.x0.toNat ^ s.x1.toNat) % s.x2.toNat

/-- R97: no odd candidate below the current one divides n. -/
def State.DivisorInv (s : State) : Prop :=
  s.phase = .tdLoop →
    s.x0.toNat % 2 = 1 ∧ 3 ≤ s.x0.toNat ∧ s.i.toNat % 2 = 1 ∧ 3 ≤ s.i.toNat ∧ s.i.toNat ≤ 2 ^ 32 + 1 ∧
    ∀ d, 3 ≤ d → d < s.i.toNat → d % 2 = 1 → ¬ d ∣ s.x0.toNat

/-- The number of engine steps ISPRIME takes on `n` (R99). -/
def isprimeSteps (n : Nat) : Nat :=
  if n < 2 ∨ n % 2 = 0 then 1
  else if n.Prime then (Nat.sqrt n - 1) / 2 + 1 + 1
  else (n.minFac - 3) / 2 + 1 + 1

/-- The number of engine steps MODEXP takes (R119); `Nat.size` is `bitlen`. -/
def modexpSteps (exp modulus : Nat) : Nat := if modulus ≤ 1 then 1 else 1 + Nat.size exp + 1

end Sys2Proof.Machine
end

