-- ==== Sys2Proof/Certificates/Slice0/Obligations.lean ====
section
/-! DEFINITION. The statements for the provers. Each docstring names the rule of spec/ it formalises. -/

open Sys2Proof Sys2Proof.Machine

/-! ### Encodings -/

/-- R73: the opcode map. A word is a command iff it equals the row's match under the row's mask; the mask is all ones, so
exactly one word spells each command. -/
def Obligations.CommandWordsDecodeByMatchAndMask : Prop :=
  ∀ w : Word,
    (decodeC w = .ok .isprime ↔ w &&& 0xFFFFFFFFFFFFFFFF#64 = 0x0000000000000001#64) ∧
    (decodeC w = .ok .modexp ↔ w &&& 0xFFFFFFFFFFFFFFFF#64 = 0x0000000000000002#64) ∧
    (decodeC w = .ok .isprime ↔ w = 0x0000000000000001#64) ∧
    (decodeC w = .ok .modexp ↔ w = 0x0000000000000002#64)

/-- R75: every other word is illegal, and writing it to CMD while IDLE raises ILLEGAL_CMD. -/
def Obligations.EveryOtherCommandWordIsIllegal : Prop :=
  ∀ w : Word, w ≠ 0x0000000000000001#64 → w ≠ 0x0000000000000002#64 →
    decodeC w = .error (.illegalCommand w) ∧
    ∀ s : State, s.phase = .idle → exec (.wr .cmd w) s = .next { s with phase := .faulted, cause := 2#2 }

/-- The T words of programs P1, P4 and P5 of spec/95_test_vectors.md, and the words of spec/30_encoding.md section 3,
stand for the lines written beside them. -/
def Obligations.ListedWordsDecode : Prop :=
  decode (.t 0x80000000000000003#68) = .ok (.wr .op0 3#64) ∧
  decode (.t 0x90000000000000005#68) = .ok (.wr .op1 5#64) ∧
  decode (.t 0xA00000000000001F1#68) = .ok (.wr .op2 497#64) ∧
  decode (.t 0xB0000000000000002#68) = .ok (.wr .cmd 2#64) ∧
  decode (.t 0x20000000000000000#68) = .ok (.rd .op2 0#64) ∧
  decode (.t 0x40000000000000000#68) = .ok (.rd .status 0#64) ∧
  decode (.t 0x50000000000000000#68) = .ok (.rd .res 0#64) ∧
  decode (.t 0x60000000000000000#68) = .ok (.rd .cause 0#64) ∧
  decode (.c 0x0000000000000001#64) = .ok .isprime ∧
  decode (.c 0x0000000000000002#64) = .ok .modexp ∧
  decode (.c 0x0000000000000011#64) = .error (.illegalCommand 0x11#64)

/-- R71: the fields of a transaction word, numbered bit 67 down to 0. Every one of the 2^68 words is a legal transaction; a
`wr` performs MemWrite, a `rd` answers MemRead, and the data bits of a `rd` have no effect. -/
def Obligations.TransactionWordFields : Prop :=
  (∀ w : TWord,
    let loc := ([Loc.op0, .op1, .op2, .cmd, .status, .res, .cause, .reserved][w.toNat / 2 ^ 64 % 8]?).getD .reserved
    let data : Word := BitVec.ofNat 64 (w.toNat % 2 ^ 64)
    decode (.t w) = .ok (if w.toNat / 2 ^ 67 = 1 then .wr loc data else .rd loc data)) ∧
  ∀ (loc : Loc) (data : Word) (s : State),
    exec (.wr loc data) s = .next (memWrite loc data s) ∧
    exec (.rd loc data) s = .next (answer (memRead loc s) s)

/-- Decoding what the encoder writes gives the instruction back, whatever its operands. -/
def Obligations.DecodeInvertsEncode : Prop :=
  ∀ i : Instr, decode (encode i) = .ok i

/-- Each word has one meaning: a word that decodes to an instruction is that instruction's encoding. For a `rd` word whose
data is not 0 this rests on the model's choice (log 9) that the decoded `rd` keeps its ignored data bits; R79 writes a `rd` with
data 0 only. -/
def Obligations.EncodeInvertsDecode : Prop :=
  ∀ (f : Encoded) (i : Instr), decode f = .ok i → encode i = f

/-- The decoder reads an instruction's word numbered as spec/opcode_table.json numbers it, at the table's width and at that
width in whole bytes. That a transaction word, whose length is 68 bits by R77, is read at 72 bits too is the model's choice
(log 16), no rule of the spec. -/
def Obligations.TableWordsDecode : Prop :=
  ∀ i : Instr,
    decodeTableWord i.row.width (encode i).toNat = some i ∧
    decodeTableWord ((i.row.width + 7) / 8 * 8) (encode i).toNat = some i

/-! ### A step runs the decoded instruction -/

/-- When the next turn presents a word that decodes to an instruction, the step takes that turn off the schedule and runs
exactly that instruction. The schedule is the model's own field (log 1). -/
def Obligations.StepRunsDecodedInstruction : Prop :=
  ∀ (s : State) (w : TWord) (rest : List Turn) (i : Instr),
    s.pending = .host w :: rest → decode (.t w) = .ok i → step s = exec i { s with pending := rest }

/-- A word placed by `withFetchWord`, at level T or at level C, is run by the very next step. The unit fetches nothing (R24):
what `withFetchWord` places is the model's choice (log 5), and so are the lengths it takes a word in (log 16). -/
def Obligations.FetchedWordRunsNext : Prop :=
  ∀ (s : State) (nbits w : Nat) (i : Instr),
    decodeTableWord nbits w = some i → step (s.withFetchWord nbits w) = exec i s

/-- The pseudo-instructions `isprime` and `modexp` are the writes of their words to CMD, in every state. -/
def Obligations.CommandsAreTheirWrites : Prop :=
  ∀ s : State,
    exec .isprime s = exec (.wr .cmd 1#64) s ∧ exec .modexp s = exec (.wr .cmd 2#64) s ∧
    ScriptLine.word .isprime = 0xB0000000000000001#68 ∧ ScriptLine.word .modexp = 0xB0000000000000002#68

/-! ### The register space -/

/-- R51: what a read answers at each index, in every PHASE, with no effect on the unit; a second read of the same index
with nothing in between answers the same. -/
def Obligations.ReadAnswersByIndex : Prop :=
  ∀ (s : State) (d : Word),
    exec (.rd .op0 d) s = .next { s with answers := s.x0 :: s.answers } ∧
    exec (.rd .op1 d) s = .next { s with answers := s.x1 :: s.answers } ∧
    exec (.rd .op2 d) s = .next { s with answers := s.x2 :: s.answers } ∧
    exec (.rd .cmd d) s = .next { s with answers := 0#64 :: s.answers } ∧
    exec (.rd .status d) s = .next { s with answers :=
      (0#60 ++ BitVec.ofBool s.wdrop ++ BitVec.ofBool s.faultBit ++ BitVec.ofBool s.done ++ BitVec.ofBool s.busy :
        BitVec 64) :: s.answers } ∧
    exec (.rd .res d) s = .next { s with answers := s.x3 :: s.answers } ∧
    exec (.rd .cause d) s = .next { s with answers := s.cause.zeroExtend 64 :: s.answers } ∧
    exec (.rd .reserved d) s = .next { s with answers := 0#64 :: s.answers } ∧
    ∀ loc : Loc, ∃ v : Word, ∃ t : State,
      exec (.rd loc d) s = .next t ∧ t.answers = v :: s.answers ∧ exec (.rd loc d) t = .next (answer v t)

/-- R53: an operand write while IDLE sets the register, all 64 bits, and changes nothing else. -/
def Obligations.OperandWriteWhenIdle : Prop :=
  ∀ (s : State) (v : Word), s.phase = .idle →
    exec (.wr .op0 v) s = .next { s with x0 := v } ∧
    exec (.wr .op1 v) s = .next { s with x1 := v } ∧
    exec (.wr .op2 v) s = .next { s with x2 := v }

/-- R55: a write to STATUS, RES, CAUSE or the reserved index while IDLE is dropped. -/
def Obligations.ReadOnlyWriteDroppedWhenIdle : Prop :=
  ∀ (s : State) (v : Word), s.phase = .idle →
    exec (.wr .status v) s = .next s ∧ exec (.wr .res v) s = .next s ∧
    exec (.wr .cause v) s = .next s ∧ exec (.wr .reserved v) s = .next s

/-- R56: while BUSY a write to any index, with any value, sets WDROP and does nothing else. -/
def Obligations.WriteWhileBusyOnlySetsWdrop : Prop :=
  ∀ (s : State) (loc : Loc) (v : Word), s.busy = true →
    exec (.wr loc v) s = .next { s with wdrop := true } ∧
    exec .isprime s = .next { s with wdrop := true } ∧
    exec .modexp s = .next { s with wdrop := true }

/-- R57: while FAULTED a write to any index, with any value, changes nothing at all. -/
def Obligations.WriteWhileFaultedDropped : Prop :=
  ∀ (s : State) (loc : Loc) (v : Word), s.phase = .faulted →
    exec (.wr loc v) s = .next s ∧ exec .isprime s = .next s ∧ exec .modexp s = .next s

/-- R91: ISPRIME issued while IDLE is accepted: DONE and PHASE change and nothing else, whatever the operand. -/
def Obligations.IsprimeAcceptedWhenIdle : Prop :=
  ∀ s : State, s.phase = .idle →
    exec .isprime s = .next { s with done := false, phase := .tdStart } ∧
    exec (.wr .cmd 0x1#64) s = .next { s with done := false, phase := .tdStart }

/-- R111: MODEXP issued while IDLE is accepted: DONE and PHASE change and nothing else, whatever the modulus. -/
def Obligations.ModexpAcceptedWhenIdle : Prop :=
  ∀ s : State, s.phase = .idle →
    exec .modexp s = .next { s with done := false, phase := .meStart } ∧
    exec (.wr .cmd 0x2#64) s = .next { s with done := false, phase := .meStart }

/-- What each instruction leaves unchanged: RES, the hidden registers and the schedule by every instruction; an operand
register by all but its own write while IDLE; WDROP by all but a write while BUSY; PHASE, DONE and CAUSE by all but a command
or a write to CMD while IDLE, of which an accepted one keeps CAUSE and an illegal one keeps DONE; the answers by all but a
read. There is no memory. -/
def Obligations.InstructionFrame : Prop :=
  ∀ (i : Instr) (s t : State), exec i s = .next t →
    t.x3 = s.x3 ∧ t.acc = s.acc ∧ t.sq = s.sq ∧ t.e = s.e ∧ t.i = s.i ∧ t.pending = s.pending ∧
    (t.x0 = s.x0 ∨ s.phase = .idle ∧ i = .wr .op0 t.x0) ∧
    (t.x1 = s.x1 ∨ s.phase = .idle ∧ i = .wr .op1 t.x1) ∧
    (t.x2 = s.x2 ∨ s.phase = .idle ∧ i = .wr .op2 t.x2) ∧
    (t.wdrop = s.wdrop ∨ t.wdrop = true ∧ s.busy = true ∧ ∀ loc d, i ≠ .rd loc d) ∧
    ((t.phase = s.phase ∧ t.done = s.done ∧ t.cause = s.cause) ∨
      s.phase = .idle ∧ (i = .isprime ∨ i = .modexp ∨ ∃ v, i = .wr .cmd v) ∧
        (t.cause = s.cause ∨ t.done = s.done)) ∧
    (t.answers = s.answers ∨ ∃ loc d, i = .rd loc d)

/-! ### The engine's steps -/

/-- R92: the engine step in PHASE TD_START. -/
def Obligations.IsprimeStartStep : Prop :=
  ∀ s u : State, EngineNext s u → s.phase = .tdStart →
    (s.x0.toNat < 2 → step s = .next { u with x3 := 0#64, done := true, phase := .idle }) ∧
    (s.x0.toNat = 2 → step s = .next { u with x3 := 1#64, done := true, phase := .idle }) ∧
    (2 < s.x0.toNat → s.x0.toNat % 2 = 0 → step s = .next { u with x3 := 0#64, done := true, phase := .idle }) ∧
    (2 < s.x0.toNat → s.x0.toNat % 2 = 1 → step s = .next { u with i := 3#64, phase := .tdLoop })

/-- R93: the engine step in PHASE TD_LOOP, in exact integers. The divisor is at least 3, as R93 says and
`StepKeepsInvariant` shows. -/
def Obligations.IsprimeLoopStep : Prop :=
  ∀ s u : State, EngineNext s u → s.phase = .tdLoop → 3 ≤ s.i.toNat →
    (s.x0.toNat < s.i.toNat * s.i.toNat → step s = .next { u with x3 := 1#64, done := true, phase := .idle }) ∧
    (s.i.toNat * s.i.toNat ≤ s.x0.toNat → s.x0.toNat % s.i.toNat = 0 →
      step s = .next { u with x3 := 0#64, done := true, phase := .idle }) ∧
    (s.i.toNat * s.i.toNat ≤ s.x0.toNat → s.x0.toNat % s.i.toNat ≠ 0 →
      step s = .next { u with i := s.i + 2#64 } ∧ (s.i + 2#64).toNat = s.i.toNat + 2)

/-- R112: the engine step in PHASE ME_START. -/
def Obligations.ModexpStartStep : Prop :=
  ∀ s u : State, EngineNext s u → s.phase = .meStart →
    (s.x2.toNat = 0 → step s = .next { u with phase := .faulted, cause := 1#2 }) ∧
    (s.x2.toNat = 1 → step s = .next { u with x3 := 0#64, done := true, phase := .idle }) ∧
    (2 ≤ s.x2.toNat → step s = .next { u with
      acc := 1#64, sq := BitVec.ofNat 64 (s.x0.toNat % s.x2.toNat), e := s.x1, phase := .meLoop })

/-- R113: the engine step in PHASE ME_LOOP, in exact integers, every right-hand side from the state before the step. The
modulus is at least 2, as R113 says and `StepKeepsInvariant` shows. -/
def Obligations.ModexpLoopStep : Prop :=
  ∀ s u : State, EngineNext s u → s.phase = .meLoop → 2 ≤ s.x2.toNat →
    (s.e.toNat = 0 → step s = .next { u with x3 := s.acc, done := true, phase := .idle }) ∧
    (s.e.toNat ≠ 0 → step s = .next { u with
      acc := if s.e.toNat % 2 = 1 then BitVec.ofNat 64 (s.acc.toNat * s.sq.toNat % s.x2.toNat) else s.acc,
      sq := BitVec.ofNat 64 (s.sq.toNat * s.sq.toNat % s.x2.toNat),
      e := BitVec.ofNat 64 (s.e.toNat / 2) })

/-- R131: MODEXP with modulus 0, from its issue: the first engine step faults, for every base and exponent; RES and the
operands are unchanged and DONE is 0. -/
def Obligations.ModulusZeroFaults : Prop :=
  ∀ (s : State) (rest : List Turn), s.phase = .idle → s.x2 = 0#64 →
    s.pending = .host 0xB0000000000000002#68 :: .engine :: rest →
    run 2 s = .next { s with pending := rest, done := false, phase := .faulted, cause := 1#2 }

/-! ### The status bits -/

/-- R26: the layout of STATUS, bit by bit; a read of it answers that word and changes nothing of the unit; a write to it
while IDLE is dropped; after reset it reads 0. -/
def Obligations.StatusWordLayout : Prop :=
  (∀ (s : State) (d : Word), exec (.rd .status d) s = .next (answer (memRead .status s) s)) ∧
  (∀ s : State, (answer (memRead .status s) s).unit = s.unit) ∧
  (∀ (s : State) (k : Nat), (memRead .status s).getLsbD k =
    match k with
    | 0 => decide (s.phase = .tdStart ∨ s.phase = .tdLoop ∨ s.phase = .meStart ∨ s.phase = .meLoop)
    | 1 => s.done
    | 2 => decide (s.phase = .faulted)
    | 3 => s.wdrop
    | _ => false) ∧
  (∀ (s : State) (v : Word), s.phase = .idle → exec (.wr .status v) s = .next s) ∧
  memRead .status State.reset = 0#64

/-- The level outputs `busy`, `done`, `fault` are the status bits, in every state. -/
def Obligations.OutputsMirrorStatus : Prop :=
  ∀ s : State, busyOutput s = s.busy ∧ doneOutput s = s.done ∧ faultOutput s = s.faultBit

/-- R32: WDROP is set by a host write that arrives while BUSY, which does nothing else; only reset clears it; every other
step keeps it. -/
def Obligations.WdropSticky : Prop :=
  ∀ s t : State, step s = .next t →
    (ResetNext s → t.wdrop = false) ∧
    (∀ w u loc v, HostNext s w u → s.busy = true → decodeT w = .wr loc v → t = { u with wdrop := true }) ∧
    (¬ ResetNext s → (∀ w u loc v, HostNext s w u → s.busy = true → decodeT w ≠ .wr loc v) → t.wdrop = s.wdrop)

/-- R28: acceptance clears DONE, completion sets it, reset clears it, nothing else changes it. -/
def Obligations.DoneLifetime : Prop :=
  ∀ s t : State, step s = .next t →
    (ResetNext s → t.done = false) ∧
    (¬ ResetNext s → s.phase = .idle → t.busy = true → t.done = false) ∧
    (¬ ResetNext s → s.busy = true → t.phase = .idle → t.done = true) ∧
    (¬ ResetNext s → ¬ (s.phase = .idle ∧ t.busy = true) → ¬ (s.busy = true ∧ t.phase = .idle) → t.done = s.done)

/-- R39: the whole table of PHASE transitions, by the kind of the transition. -/
def Obligations.PhaseTransitionTable : Prop :=
  ∀ s t : State, step s = .next t →
    (ResetNext s → t.phase = .idle) ∧
    (∀ w u v, HostNext s w u → s.phase = .idle → decodeT w = .wr .cmd v →
      t.phase = if v = 1#64 then .tdStart else if v = 2#64 then .meStart else .faulted) ∧
    (∀ w u, HostNext s w u → (s.phase ≠ .idle ∨ ∀ v, decodeT w ≠ .wr .cmd v) → t.phase = s.phase) ∧
    (∀ u, EngineNext s u → t.phase =
      match s.phase with
      | .idle => .idle
      | .tdStart => if s.x0.toNat < 2 ∨ s.x0.toNat = 2 ∨ s.x0.toNat % 2 = 0 then .idle else .tdLoop
      | .tdLoop =>
        if s.x0.toNat < s.i.toNat * s.i.toNat then .idle
        else if s.x0.toNat % s.i.toNat = 0 then .idle else .tdLoop
      | .meStart => if s.x2.toNat = 0 then .faulted else if s.x2.toNat = 1 then .idle else .meLoop
      | .meLoop => if s.e.toNat = 0 then .idle else .meLoop
      | .faulted => .faulted)

/-! ### Who may change which element -/

/-- The operand registers change only by a host write to them while IDLE, or by reset: no operation writes them. -/
def Obligations.OperandsChangeOnlyByIdleWrite : Prop :=
  ∀ s t : State, step s = .next t →
    (ResetNext s ∧ t.x0 = 0#64 ∧ t.x1 = 0#64 ∧ t.x2 = 0#64) ∨
    ((t.x0 = s.x0 ∨ ∃ w u, HostNext s w u ∧ s.phase = .idle ∧ decodeT w = .wr .op0 t.x0) ∧
     (t.x1 = s.x1 ∨ ∃ w u, HostNext s w u ∧ s.phase = .idle ∧ decodeT w = .wr .op1 t.x1) ∧
     (t.x2 = s.x2 ∨ ∃ w u, HostNext s w u ∧ s.phase = .idle ∧ decodeT w = .wr .op2 t.x2))

/-- RES changes only at a completion, which is an engine step from a BUSY phase to IDLE that sets DONE, or by reset. -/
def Obligations.ResultWrittenOnlyAtCompletion : Prop :=
  ∀ s t : State, step s = .next t →
    t.x3 = s.x3 ∨ (ResetNext s ∧ t.x3 = 0#64) ∨
    ((∃ u, EngineNext s u) ∧ s.busy = true ∧ t.phase = .idle ∧ t.done = true)

/-- CAUSE changes only at a fault entry, with the code of the fault, or by reset; code 3 is never written. -/
def Obligations.CauseWrittenOnlyByFaultEntry : Prop :=
  ∀ s t : State, step s = .next t →
    t.cause = s.cause ∨ (ResetNext s ∧ t.cause = 0#2) ∨
    (t.phase = .faulted ∧ s.phase = .idle ∧ t.cause = 2#2) ∨
    (t.phase = .faulted ∧ s.phase = .meStart ∧ t.cause = 1#2)

/-- The hidden registers change only by an engine step of the operation that uses them, or by reset. -/
def Obligations.HiddenRegistersWrittenOnlyByTheirOperation : Prop :=
  ∀ s t : State, step s = .next t → ¬ ResetNext s →
    ((t.acc = s.acc ∧ t.sq = s.sq ∧ t.e = s.e) ∨
      (∃ u, EngineNext s u) ∧ (s.phase = .meStart ∨ s.phase = .meLoop)) ∧
    (t.i = s.i ∨ (∃ u, EngineNext s u) ∧ (s.phase = .tdStart ∨ s.phase = .tdLoop))

/-! ### Reset -/

/-- R37: the value of every element after reset, and what a read of each index then returns. -/
def Obligations.ResetValues : Prop :=
  State.reset.x0 = 0#64 ∧ State.reset.x1 = 0#64 ∧ State.reset.x2 = 0#64 ∧ State.reset.x3 = 0#64 ∧
  State.reset.phase = .idle ∧ State.reset.done = false ∧ State.reset.wdrop = false ∧ State.reset.cause = 0#2 ∧
  State.reset.acc = 0#64 ∧ State.reset.sq = 0#64 ∧ State.reset.e = 0#64 ∧ State.reset.i = 0#64 ∧
  ∀ loc : Loc, memRead loc State.reset = 0#64

/-- R150: reset may occur in any state, BUSY and FAULTED ones included, and sets every element to its reset value. It is the
only transition that clears WDROP, CAUSE and FAULTED. -/
def Obligations.ResetFromAnyState : Prop :=
  (∀ s : State, ResetNext s → ∃ t, step s = .next t ∧ t.unit = State.reset) ∧
  ∀ s t : State, ¬ ResetNext s → step s = .next t →
    (s.wdrop = true → t.wdrop = true) ∧
    (s.cause ≠ 0#2 → t.cause ≠ 0#2) ∧
    (s.phase = .faulted → t.phase = .faulted)

/-- A reset turn takes only itself off the schedule, and the answers already given stay given: the model's choice (log 17),
no rule of the spec. -/
def Obligations.ResetKeepsHostSide : Prop :=
  ∀ (s : State) (rest : List Turn), s.pending = .reset :: rest →
    ∃ t, step s = .next t ∧ t.pending = rest ∧ t.answers = s.answers

/-! ### Faults -/

/-- R135: faults are precise: a step that enters FAULTED changes PHASE and CAUSE and nothing else of the unit, and is either a
write of an illegal word while IDLE or the first engine step of MODEXP with modulus 0. -/
def Obligations.FaultsArePrecise : Prop :=
  ∀ s t : State, step s = .next t → s.phase ≠ .faulted → t.phase = .faulted →
    t.unit = { s.unit with phase := .faulted, cause := t.cause } ∧
    ((s.phase = .idle ∧ t.cause = 2#2 ∧
        ∃ w u v, HostNext s w u ∧ decodeT w = .wr .cmd v ∧ v ≠ 1#64 ∧ v ≠ 2#64) ∨
     (s.phase = .meStart ∧ s.x2 = 0#64 ∧ t.cause = 1#2 ∧ ∃ u, EngineNext s u))

/-- R136: in FAULTED no command, write, read or engine turn changes the unit; reads keep working; reset is the only way
out, and it loses the operands and RES. -/
def Obligations.FaultedLeftOnlyByReset : Prop :=
  ∀ s : State, s.phase = .faulted →
    (¬ ResetNext s → ∃ t, step s = .next t ∧ t.unit = s.unit) ∧
    (∀ loc d, exec (.rd loc d) s = .next (answer (memRead loc s) s)) ∧
    (ResetNext s → ∃ t, step s = .next t ∧ t.unit = State.reset)

/-- R98: no step of ISPRIME faults, for any operand; CAUSE stays 0. The premise is the invariant of R38. -/
def Obligations.IsprimeNeverFaults : Prop :=
  ∀ s : State, s.Inv → s.phase = .tdStart ∨ s.phase = .tdLoop →
    ∃ t, step s = .next t ∧ t.phase ≠ .faulted ∧ t.cause = 0#2

/-! ### Invariants -/

/-- The reset state meets the invariant of R38, whatever turns are to come. -/
def Obligations.ResetSatisfiesInvariant : Prop :=
  ∀ ts : List Turn, (State.reset.withTurns ts).Inv

/-- Every step, of the host, of the engine or of reset, keeps the invariant of R38. -/
def Obligations.StepKeepsInvariant : Prop :=
  ∀ s t : State, s.Inv → step s = .next t → t.Inv

/-- In a state that meets the invariant no step stops: the unit never evaluates a remainder by 0. -/
def Obligations.StepAlwaysAnswers : Prop :=
  ∀ s : State, s.Inv → ∃ t, step s = .next t

/-- R38: under every schedule the machine runs from reset for ever, and every state it reaches meets the invariant. -/
def Obligations.ReachableStatesSatisfyInvariant : Prop :=
  ∀ (ts : List Turn) (k : Nat), ∃ t, run k (State.reset.withTurns ts) = .next t ∧ t.Inv

/-- R115: in PHASE ME_LOOP the modulus is at least 2, ACC and SQ lie below it, and ACC * SQ^E is congruent to base^exp. Every
step keeps it and reset has it. -/
def Obligations.PowerInvariantKept : Prop :=
  State.reset.PowerInv ∧ ∀ s t : State, s.PowerInv → step s = .next t → t.PowerInv

/-- In PHASE TD_LOOP n is odd and at least 3, I is odd with 3 <= I <= 2^32 + 1, and no odd candidate below I divides n. Every
step keeps it and reset has it. -/
def Obligations.DivisorInvariantKept : Prop :=
  State.reset.DivisorInv ∧ ∀ s t : State, s.DivisorInv → step s = .next t → t.DivisorInv

/-! ### What the two operations compute -/

/-- R97: ISPRIME, issued in any IDLE state, completes with 1 iff n is prime, for every 64-bit n; only RES, DONE and the hidden
register I differ from before. -/
def Obligations.IsprimeDecidesPrimality : Prop :=
  ∀ s : State, s.phase = .idle → s.pending = [.host 0xB0000000000000001#68] →
    ∃ (k : Nat) (t : State), run k s = .next t ∧
      t = { s with
        pending := [], done := true, i := t.i,
        x3 := if Nat.Prime s.x0.toNat then 1#64 else 0#64 }

/-- R99: the exact number of engine steps of ISPRIME: BUSY before each of them, IDLE after the last. -/
def Obligations.IsprimeStepCount : Prop :=
  ∀ s : State, s.phase = .tdStart → s.pending = [] →
    (∀ j < isprimeSteps s.x0.toNat, ∃ t, run j s = .next t ∧ t.busy = true) ∧
    ∃ t, run (isprimeSteps s.x0.toNat) s = .next t ∧ t.phase = .idle ∧ t.done = true

/-- R116 and the result of R110: MODEXP, issued in any IDLE state with modulus >= 1, completes with base^exp mod modulus
exactly, for all values of the operands; only RES, DONE and the hidden registers ACC, SQ, E differ from before. -/
def Obligations.ModexpComputesPower : Prop :=
  ∀ s : State, s.phase = .idle → s.x2 ≠ 0#64 → s.pending = [.host 0xB0000000000000002#68] →
    ∃ (k : Nat) (t : State), run k s = .next t ∧
      t = { s with
        pending := [], done := true, acc := t.acc, sq := t.sq, e := t.e,
        x3 := BitVec.ofNat 64 (s.x0.toNat ^ s.x1.toNat % s.x2.toNat) }

/-- R119: the exact number of engine steps of MODEXP: BUSY before each of them; after the last, IDLE with DONE set, or FAULTED
for modulus 0. -/
def Obligations.ModexpStepCount : Prop :=
  ∀ s : State, s.phase = .meStart → s.pending = [] →
    (∀ j < modexpSteps s.x1.toNat s.x2.toNat, ∃ t, run j s = .next t ∧ t.busy = true) ∧
    ∃ t, run (modexpSteps s.x1.toNat s.x2.toNat) s = .next t ∧
      (if s.x2.toNat = 0 then t.phase = .faulted else t.phase = .idle ∧ t.done = true)

/-- `call is_prime(n)` (R80) under every interleaving of its polls: with enough engine turns among them (R99), the last poll
finds BUSY = 0 and DONE = 1 and the call's answer is 1 iff n is prime (R97). That the loop `wait` stands unfolded into its polls
is the model's choice (log 14). -/
def Obligations.CallIsPrimeAnswers : Prop :=
  ∀ (s : State) (n : Word) (gaps : List Nat) (rest : List Turn),
    s.phase = .idle → isprimeSteps n.toNat ≤ gaps.sum → s.pending = callIsPrime n gaps ++ rest →
    ∃ (k : Nat) (t : State) (polls : List Word), run k s = .next t ∧ t.pending = rest ∧ t.phase = .idle ∧
      t.answers = (if Nat.Prime n.toNat then 1#64 else 0#64) :: (polls ++ s.answers) ∧
      polls.length = gaps.length ∧ polls.head? = some (if s.wdrop then 0xA#64 else 0x2#64)

/-- `call mod_exp(b, e, m)` (R80) with m >= 1 under every interleaving of its polls: with enough engine turns among them
(R119), the last poll and the call's own STATUS read find BUSY = 0, FAULT = 0 and DONE = 1, and the call's answer is b^e mod m
(R110, R116). That the loop `wait` stands unfolded into its polls is the model's choice (log 14). -/
def Obligations.CallModExpAnswers : Prop :=
  ∀ (s : State) (b e m : Word) (gaps : List Nat) (rest : List Turn),
    s.phase = .idle → m ≠ 0#64 → modexpSteps e.toNat m.toNat ≤ gaps.sum → s.pending = callModExp b e m gaps ++ rest →
    ∃ (k : Nat) (t : State) (polls : List Word), run k s = .next t ∧ t.pending = rest ∧ t.phase = .idle ∧
      t.answers = BitVec.ofNat 64 (b.toNat ^ e.toNat % m.toNat) :: (if s.wdrop then 0xA#64 else 0x2#64) ::
        (polls ++ s.answers) ∧
      polls.length = gaps.length ∧ polls.head? = some (if s.wdrop then 0xA#64 else 0x2#64)

/-! ### The whole machine -/

/-- Reads disturb nothing: a schedule and the same schedule without its reads leave the same unit. -/
def Obligations.ReadsDisturbNothing : Prop :=
  ∀ (s t : State) (ts : List Turn), run ts.length (s.withTurns ts) = .next t →
    ∃ t', run (ts.filter fun x => !x.isRead).length (s.withTurns (ts.filter fun x => !x.isRead)) = .next t' ∧
      t'.unit = t.unit

/-- The hidden registers' values outside a loop never show: two states that differ only in ACC, SQ, E and I, in a phase that
is no loop phase, give the host the same answers and the same visible elements after any number of steps. -/
def Obligations.HiddenRegistersNeverShow : Prop :=
  ∀ (s t : State) (acc sq e i : Word) (k : Nat), s.phase ≠ .tdLoop → s.phase ≠ .meLoop → run k s = .next t →
    ∃ t', run k { s with acc := acc, sq := sq, e := e, i := i } = .next t' ∧
      t' = { t with acc := t'.acc, sq := t'.sq, e := t'.e, i := t'.i }

/-- While an operation runs, a host transaction and an engine step may come in either order: if the step does not end the
operation, the state after both is the same, the host's answer included. -/
def Obligations.HostTurnCommutesWithEngineStep : Prop :=
  ∀ (s u : State) (w : TWord) (rest : List Turn), s.busy = true → engineStep s = .next u → u.busy = true →
    run 2 (s.withTurns (.host w :: .engine :: rest)) = run 2 (s.withTurns (.engine :: .host w :: rest))

/-- R158 in the model, where a schedule is a finite list and the engine goes on after it (log 2): from every state that meets the
invariant the machine comes to rest, with the schedule used up and the unit quiescent. -/
def Obligations.EveryOperationEnds : Prop :=
  ∀ s : State, s.Inv → ∃ (k : Nat) (t : State), run k s = .next t ∧ t.pending = [] ∧ t.quiescent = true

/-- A quiescent unit has no engine step: its state changes only by a host transaction or reset. That an engine turn then
passes with no effect, and an empty schedule is no stop, is the model's choice (log 2, log 3). -/
def Obligations.QuiescentUnitRests : Prop :=
  ∀ s u : State, s.quiescent = true → EngineNext s u → step s = .next u ∧ u.unit = s.unit

/-- The wrapper that R60 recommends and does not require: at a base that is a multiple of 8, an 8-byte access at offset 8 * idx
is the read or write of index idx, little-endian; every access that is not of 8 bytes, not naturally aligned, not at an offset
8 * idx of the eight locations, or a write of other than eight bytes, is refused. R60 leaves the base's alignment open; what the
model does there, and the shape of an access, are its choices (log 19, log 21). -/
def Obligations.RecommendedWrapperMap : Prop :=
  (∀ (base : Nat) (loc : Loc) (bytes : List (BitVec 8)), 8 ∣ base → bytes.length = 8 →
    recommendedWrapper base ⟨false, base + 8 * loc.index.toNat, 8, []⟩ = some (tWord false loc 0#64) ∧
    recommendedWrapper base ⟨true, base + 8 * loc.index.toNat, 8, bytes⟩ =
      some (tWord true loc (BitVec.ofNat 64 (littleEndian bytes)))) ∧
  ∀ (base : Nat) (a : BusAccess),
    (a.size ≠ 8 ∨ a.address % 8 ≠ 0 ∨ a.address < base ∨ base + 64 ≤ a.address ∨ (a.address - base) % 8 ≠ 0 ∨
      (a.write = true ∧ a.bytes.length ≠ 8)) →
      recommendedWrapper base a = none

/-- The end of a run (R159): the host has issued its last transaction and PHASE is IDLE or FAULTED; from there on no number of
steps changes the unit or the answers given, and the run stays ended. It ended well iff, besides, FAULT = 0 and WDROP = 0. That
a reset still to come keeps a run from its end is the model's choice (log 22). -/
def Obligations.EndedRunRests : Prop :=
  ∀ s : State,
    (s.ended = true ↔ (∀ t ∈ s.pending, t = Turn.engine) ∧ (s.phase = .idle ∨ s.phase = .faulted)) ∧
    (s.endedWell = true ↔ s.ended = true ∧ s.phase = .idle ∧ s.wdrop = false) ∧
    (s.ended = true → ∀ k : Nat, ∃ t, run k s = .next t ∧ t.unit = s.unit ∧ t.answers = s.answers ∧ t.ended = true)
end

