-- ==== Sys2Proof/Laws/Arith.lean ====
section
/-! SUPPORT. The arithmetic of a step as arithmetic of the natural numbers (spec/00_scope.md R7 to R11). -/

namespace Sys2Proof.Machine

theorem zext128_toNat (w : Word) : (zext128 w).toNat = w.toNat := by
  have := w.isLt
  simp only [zext128, BitVec.toNat_setWidth]
  omega

/-- Every product is exact: no bit is lost (R7). -/
theorem product_toNat (a b : Word) : (product a b).toNat = a.toNat * b.toNat := by
  have bound : a.toNat * b.toNat < 2 ^ 64 * 2 ^ 64 := Nat.mul_lt_mul'' a.isLt b.isLt
  rw [product, BitVec.toNat_mul, zext128_toNat, zext128_toNat]
  exact Nat.mod_eq_of_lt (by omega)

/-- The bound test compares exact integers (R10, R94). -/
theorem exceeds_product_iff (a b n : Word) : exceeds (product a b) n = true ↔ n.toNat < a.toNat * b.toNat := by
  rw [exceeds, decide_eq_true_eq, BitVec.lt_def, zext128_toNat, product_toNat]

theorem toNat_eq_zero_iff (w : Word) : w = 0#64 ↔ w.toNat = 0 := by
  constructor
  · rintro rfl; rfl
  · intro h; exact BitVec.eq_of_toNat_eq h

/-- The remainder by `m >= 1` is the remainder of the integers, and lies below `m` (R8). -/
theorem remainder_toNat (v : DWord) (m : Word) (hm : m ≠ 0#64) : (remainder v m).toNat = v.toNat % m.toNat := by
  have pos : 0 < m.toNat := Nat.pos_of_ne_zero fun h => hm ((toNat_eq_zero_iff m).2 h)
  have below := Nat.mod_lt v.toNat pos
  have := m.isLt
  rw [remainder, BitVec.toNat_setWidth, BitVec.toNat_umod, zext128_toNat]
  exact Nat.mod_eq_of_lt (by omega)

/-- `E >> 1` is `floor(E / 2)` (R9). -/
theorem shiftRight1_toNat (w : Word) : (shiftRight1 w).toNat = w.toNat / 2 := by
  rw [shiftRight1, BitVec.toNat_ushiftRight, Nat.shiftRight_eq_div_pow, pow_one]

/-- `E[0]` is `E mod 2` (R9). -/
theorem bit0_iff (w : Word) : bit0 w = true ↔ w.toNat % 2 = 1 := by
  rw [bit0, BitVec.getLsbD, Nat.testBit_zero, decide_eq_true_eq]

/-- `I + 2` does not wrap below 2^64 - 2 (R11). -/
theorem nextDivisor_toNat (w : Word) (h : w.toNat + 2 < 2 ^ 64) : (nextDivisor w).toNat = w.toNat + 2 := by
  rw [nextDivisor, BitVec.toNat_add]
  exact Nat.mod_eq_of_lt h

/-- All that `withRemainder` can do. -/
theorem withRemainder_next {v : DWord} {m : Word} {k : Word → Host.Outcome State Fault Refusal} {t : State}
    (h : withRemainder v m k = .next t) : m ≠ 0#64 ∧ k (remainder v m) = .next t := by
  unfold withRemainder at h
  split at h
  · cases h
  · exact ⟨‹_›, h⟩

theorem withRemainder_of_ne {v : DWord} {m : Word} {k : Word → Host.Outcome State Fault Refusal} (h : m ≠ 0#64) :
    withRemainder v m k = k (remainder v m) := by
  rw [withRemainder, if_neg h]

end Sys2Proof.Machine
end

