-- ==== Sys2Proof/Laws/Encoding.lean ====
section
/-! SUPPORT. The two levels of encoding (spec/30_encoding.md R70 to R77). -/

namespace Sys2Proof

theorem Loc.ofIndex_index (l : Loc) : Loc.ofIndex l.index = l := by cases l <;> rfl

theorem Loc.index_ofIndex : ∀ b : Index, (Loc.ofIndex b).index = b := by decide

/-- The mask of all ones leaves a word as it is (R73). -/
theorem and_commandMask (w : Word) : w &&& commandMask = w := by
  have : commandMask = BitVec.allOnes 64 := by decide
  rw [this, BitVec.and_allOnes]

/-- All that the command decoder can answer (R72, R73, R75). -/
theorem decodeC_eq (w : Word) :
    decodeC w = if w = isprimeWord then .ok .isprime else if w = modexpWord then .ok .modexp
      else .error (.illegalCommand w) := by
  rw [decodeC, and_commandMask]

theorem decodeC_isprime : decodeC isprimeWord = .ok .isprime := by rw [decodeC_eq, if_pos rfl]

theorem decodeC_modexp : decodeC modexpWord = .ok .modexp := by
  rw [decodeC_eq, if_neg (by decide), if_pos rfl]

theorem decodeC_illegal {w : Word} (h1 : w ≠ isprimeWord) (h2 : w ≠ modexpWord) :
    decodeC w = .error (.illegalCommand w) := by
  rw [decodeC_eq, if_neg h1, if_neg h2]

end Sys2Proof
end

