-- ==== Sys2Proof/Laws/State.lean ====
section
/-! SUPPORT. What each field of the state is after each named update: all true by rfl. -/

namespace Sys2Proof.Machine

@[simp] theorem raise_x0 (f : UnitFault) (s : State) : (raise f s).x0 = s.x0 := rfl
@[simp] theorem raise_x1 (f : UnitFault) (s : State) : (raise f s).x1 = s.x1 := rfl
@[simp] theorem raise_x2 (f : UnitFault) (s : State) : (raise f s).x2 = s.x2 := rfl
@[simp] theorem raise_x3 (f : UnitFault) (s : State) : (raise f s).x3 = s.x3 := rfl
@[simp] theorem raise_phase (f : UnitFault) (s : State) : (raise f s).phase = .faulted := rfl
@[simp] theorem raise_done (f : UnitFault) (s : State) : (raise f s).done = s.done := rfl
@[simp] theorem raise_wdrop (f : UnitFault) (s : State) : (raise f s).wdrop = s.wdrop := rfl
@[simp] theorem raise_cause (f : UnitFault) (s : State) : (raise f s).cause = f.code := rfl
@[simp] theorem raise_acc (f : UnitFault) (s : State) : (raise f s).acc = s.acc := rfl
@[simp] theorem raise_sq (f : UnitFault) (s : State) : (raise f s).sq = s.sq := rfl
@[simp] theorem raise_e (f : UnitFault) (s : State) : (raise f s).e = s.e := rfl
@[simp] theorem raise_i (f : UnitFault) (s : State) : (raise f s).i = s.i := rfl
@[simp] theorem raise_pending (f : UnitFault) (s : State) : (raise f s).pending = s.pending := rfl
@[simp] theorem raise_answers (f : UnitFault) (s : State) : (raise f s).answers = s.answers := rfl

@[simp] theorem complete_x0 (v : Word) (s : State) : (complete v s).x0 = s.x0 := rfl
@[simp] theorem complete_x1 (v : Word) (s : State) : (complete v s).x1 = s.x1 := rfl
@[simp] theorem complete_x2 (v : Word) (s : State) : (complete v s).x2 = s.x2 := rfl
@[simp] theorem complete_x3 (v : Word) (s : State) : (complete v s).x3 = v := rfl
@[simp] theorem complete_phase (v : Word) (s : State) : (complete v s).phase = .idle := rfl
@[simp] theorem complete_done (v : Word) (s : State) : (complete v s).done = true := rfl
@[simp] theorem complete_wdrop (v : Word) (s : State) : (complete v s).wdrop = s.wdrop := rfl
@[simp] theorem complete_cause (v : Word) (s : State) : (complete v s).cause = s.cause := rfl
@[simp] theorem complete_acc (v : Word) (s : State) : (complete v s).acc = s.acc := rfl
@[simp] theorem complete_sq (v : Word) (s : State) : (complete v s).sq = s.sq := rfl
@[simp] theorem complete_e (v : Word) (s : State) : (complete v s).e = s.e := rfl
@[simp] theorem complete_i (v : Word) (s : State) : (complete v s).i = s.i := rfl
@[simp] theorem complete_pending (v : Word) (s : State) : (complete v s).pending = s.pending := rfl
@[simp] theorem complete_answers (v : Word) (s : State) : (complete v s).answers = s.answers := rfl

@[simp] theorem accept_x0 (c : Command) (s : State) : (accept c s).x0 = s.x0 := rfl
@[simp] theorem accept_x1 (c : Command) (s : State) : (accept c s).x1 = s.x1 := rfl
@[simp] theorem accept_x2 (c : Command) (s : State) : (accept c s).x2 = s.x2 := rfl
@[simp] theorem accept_x3 (c : Command) (s : State) : (accept c s).x3 = s.x3 := rfl
@[simp] theorem accept_phase (c : Command) (s : State) : (accept c s).phase = Command.startPhase c := rfl
@[simp] theorem accept_done (c : Command) (s : State) : (accept c s).done = false := rfl
@[simp] theorem accept_wdrop (c : Command) (s : State) : (accept c s).wdrop = s.wdrop := rfl
@[simp] theorem accept_cause (c : Command) (s : State) : (accept c s).cause = s.cause := rfl
@[simp] theorem accept_acc (c : Command) (s : State) : (accept c s).acc = s.acc := rfl
@[simp] theorem accept_sq (c : Command) (s : State) : (accept c s).sq = s.sq := rfl
@[simp] theorem accept_e (c : Command) (s : State) : (accept c s).e = s.e := rfl
@[simp] theorem accept_i (c : Command) (s : State) : (accept c s).i = s.i := rfl
@[simp] theorem accept_pending (c : Command) (s : State) : (accept c s).pending = s.pending := rfl
@[simp] theorem accept_answers (c : Command) (s : State) : (accept c s).answers = s.answers := rfl

@[simp] theorem answer_x0 (v : Word) (s : State) : (answer v s).x0 = s.x0 := rfl
@[simp] theorem answer_x1 (v : Word) (s : State) : (answer v s).x1 = s.x1 := rfl
@[simp] theorem answer_x2 (v : Word) (s : State) : (answer v s).x2 = s.x2 := rfl
@[simp] theorem answer_x3 (v : Word) (s : State) : (answer v s).x3 = s.x3 := rfl
@[simp] theorem answer_phase (v : Word) (s : State) : (answer v s).phase = s.phase := rfl
@[simp] theorem answer_done (v : Word) (s : State) : (answer v s).done = s.done := rfl
@[simp] theorem answer_wdrop (v : Word) (s : State) : (answer v s).wdrop = s.wdrop := rfl
@[simp] theorem answer_cause (v : Word) (s : State) : (answer v s).cause = s.cause := rfl
@[simp] theorem answer_acc (v : Word) (s : State) : (answer v s).acc = s.acc := rfl
@[simp] theorem answer_sq (v : Word) (s : State) : (answer v s).sq = s.sq := rfl
@[simp] theorem answer_e (v : Word) (s : State) : (answer v s).e = s.e := rfl
@[simp] theorem answer_i (v : Word) (s : State) : (answer v s).i = s.i := rfl
@[simp] theorem answer_pending (v : Word) (s : State) : (answer v s).pending = s.pending := rfl
@[simp] theorem answer_answers (v : Word) (s : State) : (answer v s).answers = v :: s.answers := rfl

@[simp] theorem resetUnit_x0 (s : State) : (resetUnit s).x0 = 0#64 := rfl
@[simp] theorem resetUnit_x1 (s : State) : (resetUnit s).x1 = 0#64 := rfl
@[simp] theorem resetUnit_x2 (s : State) : (resetUnit s).x2 = 0#64 := rfl
@[simp] theorem resetUnit_x3 (s : State) : (resetUnit s).x3 = 0#64 := rfl
@[simp] theorem resetUnit_phase (s : State) : (resetUnit s).phase = .idle := rfl
@[simp] theorem resetUnit_done (s : State) : (resetUnit s).done = false := rfl
@[simp] theorem resetUnit_wdrop (s : State) : (resetUnit s).wdrop = false := rfl
@[simp] theorem resetUnit_cause (s : State) : (resetUnit s).cause = 0#2 := rfl
@[simp] theorem resetUnit_acc (s : State) : (resetUnit s).acc = 0#64 := rfl
@[simp] theorem resetUnit_sq (s : State) : (resetUnit s).sq = 0#64 := rfl
@[simp] theorem resetUnit_e (s : State) : (resetUnit s).e = 0#64 := rfl
@[simp] theorem resetUnit_i (s : State) : (resetUnit s).i = 0#64 := rfl
@[simp] theorem resetUnit_pending (s : State) : (resetUnit s).pending = s.pending := rfl
@[simp] theorem resetUnit_answers (s : State) : (resetUnit s).answers = s.answers := rfl

@[simp] theorem withTurns_x0 (s : State) (ts : List Turn) : (s.withTurns ts).x0 = s.x0 := rfl
@[simp] theorem withTurns_x1 (s : State) (ts : List Turn) : (s.withTurns ts).x1 = s.x1 := rfl
@[simp] theorem withTurns_x2 (s : State) (ts : List Turn) : (s.withTurns ts).x2 = s.x2 := rfl
@[simp] theorem withTurns_x3 (s : State) (ts : List Turn) : (s.withTurns ts).x3 = s.x3 := rfl
@[simp] theorem withTurns_phase (s : State) (ts : List Turn) : (s.withTurns ts).phase = s.phase := rfl
@[simp] theorem withTurns_done (s : State) (ts : List Turn) : (s.withTurns ts).done = s.done := rfl
@[simp] theorem withTurns_wdrop (s : State) (ts : List Turn) : (s.withTurns ts).wdrop = s.wdrop := rfl
@[simp] theorem withTurns_cause (s : State) (ts : List Turn) : (s.withTurns ts).cause = s.cause := rfl
@[simp] theorem withTurns_acc (s : State) (ts : List Turn) : (s.withTurns ts).acc = s.acc := rfl
@[simp] theorem withTurns_sq (s : State) (ts : List Turn) : (s.withTurns ts).sq = s.sq := rfl
@[simp] theorem withTurns_e (s : State) (ts : List Turn) : (s.withTurns ts).e = s.e := rfl
@[simp] theorem withTurns_i (s : State) (ts : List Turn) : (s.withTurns ts).i = s.i := rfl
@[simp] theorem withTurns_pending (s : State) (ts : List Turn) : (s.withTurns ts).pending = ts := rfl
@[simp] theorem withTurns_answers (s : State) (ts : List Turn) : (s.withTurns ts).answers = s.answers := rfl

@[simp] theorem withFetchWord_x0 (s : State) (nbits w : Nat) : (s.withFetchWord nbits w).x0 = s.x0 := rfl
@[simp] theorem withFetchWord_x1 (s : State) (nbits w : Nat) : (s.withFetchWord nbits w).x1 = s.x1 := rfl
@[simp] theorem withFetchWord_x2 (s : State) (nbits w : Nat) : (s.withFetchWord nbits w).x2 = s.x2 := rfl
@[simp] theorem withFetchWord_x3 (s : State) (nbits w : Nat) : (s.withFetchWord nbits w).x3 = s.x3 := rfl
@[simp] theorem withFetchWord_phase (s : State) (nbits w : Nat) : (s.withFetchWord nbits w).phase = s.phase := rfl
@[simp] theorem withFetchWord_done (s : State) (nbits w : Nat) : (s.withFetchWord nbits w).done = s.done := rfl
@[simp] theorem withFetchWord_wdrop (s : State) (nbits w : Nat) : (s.withFetchWord nbits w).wdrop = s.wdrop := rfl
@[simp] theorem withFetchWord_cause (s : State) (nbits w : Nat) : (s.withFetchWord nbits w).cause = s.cause := rfl
@[simp] theorem withFetchWord_acc (s : State) (nbits w : Nat) : (s.withFetchWord nbits w).acc = s.acc := rfl
@[simp] theorem withFetchWord_sq (s : State) (nbits w : Nat) : (s.withFetchWord nbits w).sq = s.sq := rfl
@[simp] theorem withFetchWord_e (s : State) (nbits w : Nat) : (s.withFetchWord nbits w).e = s.e := rfl
@[simp] theorem withFetchWord_i (s : State) (nbits w : Nat) : (s.withFetchWord nbits w).i = s.i := rfl
@[simp] theorem withFetchWord_pending (s : State) (nbits w : Nat) : (s.withFetchWord nbits w).pending = (tableTurn nbits w).toList ++ s.pending := rfl
@[simp] theorem withFetchWord_answers (s : State) (nbits w : Nat) : (s.withFetchWord nbits w).answers = s.answers := rfl

@[simp] theorem unit_x0 (s : State) : s.unit.x0 = s.x0 := rfl
@[simp] theorem unit_x1 (s : State) : s.unit.x1 = s.x1 := rfl
@[simp] theorem unit_x2 (s : State) : s.unit.x2 = s.x2 := rfl
@[simp] theorem unit_x3 (s : State) : s.unit.x3 = s.x3 := rfl
@[simp] theorem unit_phase (s : State) : s.unit.phase = s.phase := rfl
@[simp] theorem unit_done (s : State) : s.unit.done = s.done := rfl
@[simp] theorem unit_wdrop (s : State) : s.unit.wdrop = s.wdrop := rfl
@[simp] theorem unit_cause (s : State) : s.unit.cause = s.cause := rfl
@[simp] theorem unit_acc (s : State) : s.unit.acc = s.acc := rfl
@[simp] theorem unit_sq (s : State) : s.unit.sq = s.sq := rfl
@[simp] theorem unit_e (s : State) : s.unit.e = s.e := rfl
@[simp] theorem unit_i (s : State) : s.unit.i = s.i := rfl
@[simp] theorem unit_pending (s : State) : s.unit.pending = [] := rfl
@[simp] theorem unit_answers (s : State) : s.unit.answers = [] := rfl

end Sys2Proof.Machine
end

