-- ==== Sys2Proof/Laws/Ops.lean ====
section
/-! SUPPORT. What the shared operations can do, said once. -/

namespace Sys2Proof.Machine

@[simp] theorem busy_idle : Phase.busy .idle = false := rfl
@[simp] theorem busy_tdStart : Phase.busy .tdStart = true := rfl
@[simp] theorem busy_tdLoop : Phase.busy .tdLoop = true := rfl
@[simp] theorem busy_meStart : Phase.busy .meStart = true := rfl
@[simp] theorem busy_meLoop : Phase.busy .meLoop = true := rfl
@[simp] theorem busy_faulted : Phase.busy .faulted = false := rfl
@[simp] theorem fault_idle : Phase.fault .idle = false := rfl
@[simp] theorem fault_tdStart : Phase.fault .tdStart = false := rfl
@[simp] theorem fault_tdLoop : Phase.fault .tdLoop = false := rfl
@[simp] theorem fault_meStart : Phase.fault .meStart = false := rfl
@[simp] theorem fault_meLoop : Phase.fault .meLoop = false := rfl
@[simp] theorem fault_faulted : Phase.fault .faulted = true := rfl

/-- Every phase is IDLE, FAULTED or busy (R25). -/
theorem phase_cases (p : Phase) : p = .idle ∨ p = .faulted ∨ p.busy = true := by cases p <;> simp

theorem fault_eq_true_iff (p : Phase) : p.fault = true ↔ p = .faulted := by cases p <;> simp

theorem busy_startPhase (c : Command) : (Command.startPhase c).busy = true := by cases c <;> rfl

theorem writeGate_idle {f : State → State} {s : State} (h : s.phase = .idle) : writeGate f s = f s := by
  simp [writeGate, State.busy, h]

theorem writeGate_busy {f : State → State} {s : State} (h : s.busy = true) :
    writeGate f s = { s with wdrop := true } := by
  have : s.phase ≠ .faulted := by
    intro hf
    simp [State.busy, hf] at h
  rw [writeGate, if_neg this, if_pos h]

theorem writeGate_faulted {f : State → State} {s : State} (h : s.phase = .faulted) : writeGate f s = s := by
  rw [writeGate, if_pos h]

/-- All that a dispatched write can do (R52). -/
theorem writeGate_cases (f : State → State) (s : State) :
    (s.phase = .faulted ∧ writeGate f s = s) ∨
    (s.busy = true ∧ writeGate f s = { s with wdrop := true }) ∨
    (s.phase = .idle ∧ writeGate f s = f s) := by
  rcases phase_cases s.phase with h | h | h
  · exact .inr (.inr ⟨h, writeGate_idle h⟩)
  · exact .inl ⟨h, writeGate_faulted h⟩
  · exact .inr (.inl ⟨h, writeGate_busy h⟩)

theorem command_isprime (s : State) : command isprimeWord s = accept .isprime s := by
  rw [command, decodeC_isprime]

theorem command_modexp (s : State) : command modexpWord s = accept .modexp s := by
  rw [command, decodeC_modexp]

theorem command_illegal {v : Word} (h1 : v ≠ isprimeWord) (h2 : v ≠ modexpWord) (s : State) :
    command v s = raise .illegalCmd s := by
  rw [command, decodeC_illegal h1 h2]

/-- All that a command write can do (R78). -/
theorem command_cases (v : Word) (s : State) :
    (∃ c, decodeC v = .ok c ∧ command v s = accept c s) ∨
    (v ≠ isprimeWord ∧ v ≠ modexpWord ∧ command v s = raise .illegalCmd s) := by
  by_cases h1 : v = isprimeWord
  · exact .inl ⟨.isprime, h1 ▸ decodeC_isprime, h1 ▸ command_isprime s⟩
  · by_cases h2 : v = modexpWord
    · exact .inl ⟨.modexp, h2 ▸ decodeC_modexp, h2 ▸ command_modexp s⟩
    · exact .inr ⟨h1, h2, command_illegal h1 h2 s⟩

theorem nextTurn_nil {s : State} (h : s.pending = []) : nextTurn s = none := by
  rw [nextTurn, h]

theorem nextTurn_cons {s : State} {t : Turn} {rest : List Turn} (h : s.pending = t :: rest) :
    nextTurn s = some (t, { s with pending := rest }) := by
  rw [nextTurn, h]

/-- A 64-bit number is presented as the data of a write to CMD (R70, R80). -/
theorem tableTurn_command {w : Nat} (h : w < 2 ^ 64) :
    tableTurn 64 w = some (.host (tWord true .cmd (BitVec.ofNat 64 w))) := if_pos h

/-- A 68-bit number is presented as it stands, at either length the decoder takes (log 16). -/
theorem tableTurn_transaction {w : Nat} (h : w < 2 ^ 68) :
    tableTurn 68 w = some (.host (BitVec.ofNat 68 w)) ∧ tableTurn 72 w = some (.host (BitVec.ofNat 68 w)) :=
  ⟨if_pos h, if_pos h⟩

end Sys2Proof.Machine
end

