-- ==== Sys2Proof/Laws/Engine.lean ====
section
/-! SUPPORT. What one engine step can do, said once, in the arithmetic of the natural numbers. -/

namespace Sys2Proof.Machine

/-- All that the TD_START step can do (R92). -/
theorem stepTdStart_cases (s : State) :
    (s.x0.toNat < 2 ∧ stepTdStart s = .next (complete 0#64 s)) ∨
    (s.x0.toNat = 2 ∧ stepTdStart s = .next (complete 1#64 s)) ∨
    (2 < s.x0.toNat ∧ s.x0.toNat % 2 = 0 ∧ stepTdStart s = .next (complete 0#64 s)) ∨
    (3 ≤ s.x0.toNat ∧ s.x0.toNat % 2 = 1 ∧ stepTdStart s = .next { s with i := 3#64, phase := .tdLoop }) := by
  have h2 : (2#64).toNat = 2 := rfl
  by_cases below : s.x0 < 2#64
  · exact .inl ⟨by rw [BitVec.lt_def] at below; omega, by simp [stepTdStart, operandN, below, boolResult]⟩
  · by_cases two : s.x0 = 2#64
    · exact .inr (.inl ⟨by rw [two]; rfl, by simp [stepTdStart, operandN, two, boolResult]⟩)
    · have above : 2 < s.x0.toNat := by
        have ne : s.x0.toNat ≠ 2 := fun h => two (BitVec.eq_of_toNat_eq h)
        rw [BitVec.lt_def] at below
        omega
      cases parity : bit0 s.x0 with
      | false =>
        have even : s.x0.toNat % 2 = 0 := by
          have := (bit0_iff s.x0).not.1 (by simp [parity])
          omega
        exact .inr (.inr (.inl ⟨above, even, by simp [stepTdStart, operandN, below, two, parity, boolResult]⟩))
      | true =>
        exact .inr (.inr (.inr ⟨above, (bit0_iff _).1 parity, by simp [stepTdStart, operandN, below, two, parity]⟩))

/-- All that the TD_LOOP step can do with a divisor that is not 0 (R93). -/
theorem stepTdLoop_cases (s : State) (hi : s.i.toNat ≠ 0) :
    (s.x0.toNat < s.i.toNat * s.i.toNat ∧ stepTdLoop s = .next (complete 1#64 s)) ∨
    (s.i.toNat * s.i.toNat ≤ s.x0.toNat ∧ s.i.toNat ∣ s.x0.toNat ∧ stepTdLoop s = .next (complete 0#64 s)) ∨
    (s.i.toNat * s.i.toNat ≤ s.x0.toNat ∧ ¬ s.i.toNat ∣ s.x0.toNat ∧
      stepTdLoop s = .next { s with i := nextDivisor s.i }) := by
  have ne : s.i ≠ 0#64 := fun h => hi ((toNat_eq_zero_iff _).1 h)
  have rem : (remainder (zext128 s.x0) s.i).toNat = s.x0.toNat % s.i.toNat := by
    rw [remainder_toNat _ _ ne, zext128_toNat]
  by_cases exceeded : exceeds (product s.i s.i) s.x0 = true
  · exact .inl ⟨(exceeds_product_iff _ _ _).1 exceeded, by simp [stepTdLoop, operandN, exceeded, boolResult]⟩
  · have bound : s.i.toNat * s.i.toNat ≤ s.x0.toNat := by
      have := (exceeds_product_iff s.i s.i s.x0).not.1 exceeded
      omega
    by_cases zero : remainder (zext128 s.x0) s.i = 0#64
    · refine .inr (.inl ⟨bound, Nat.dvd_of_mod_eq_zero ?_, ?_⟩)
      · rw [← rem, zero]; rfl
      · simp [stepTdLoop, operandN, exceeded, withRemainder_of_ne ne, zero, boolResult]
    · refine .inr (.inr ⟨bound, fun dvd => zero ?_, ?_⟩)
      · rw [toNat_eq_zero_iff, rem]; exact Nat.mod_eq_zero_of_dvd dvd
      · simp [stepTdLoop, operandN, exceeded, withRemainder_of_ne ne, zero]

/-- A divisor of 0, which no reachable state has: the model stops (R8). -/
theorem stepTdLoop_zero (s : State) (hi : s.i.toNat = 0) : stepTdLoop s = .fault .remainderByZero := by
  have zero : s.i = 0#64 := (toNat_eq_zero_iff _).2 hi
  have within : ¬ exceeds (product s.i s.i) s.x0 = true := by
    rw [exceeds_product_iff, hi]
    omega
  rw [stepTdLoop, operandN, if_neg within, withRemainder, if_pos zero]

/-- All that the ME_START step can do (R112). -/
theorem stepMeStart_cases (s : State) :
    (s.x2.toNat = 0 ∧ stepMeStart s = .next (raise .modZero s)) ∨
    (s.x2.toNat = 1 ∧ stepMeStart s = .next (complete 0#64 s)) ∨
    (2 ≤ s.x2.toNat ∧ (remainder (zext128 s.x0) s.x2).toNat = s.x0.toNat % s.x2.toNat ∧
      stepMeStart s = .next { s with
        acc := 1#64, sq := remainder (zext128 s.x0) s.x2, e := s.x1, phase := .meLoop }) := by
  by_cases zero : s.x2 = 0#64
  · exact .inl ⟨by rw [zero]; rfl, by simp [stepMeStart, operandModulus, zero]⟩
  · by_cases one : s.x2 = 1#64
    · exact .inr (.inl ⟨by rw [one]; rfl, by simp [stepMeStart, operandModulus, one]⟩)
    · refine .inr (.inr ⟨?_, ?_, ?_⟩)
      · have n0 : s.x2.toNat ≠ 0 := fun h => zero (BitVec.eq_of_toNat_eq h)
        have n1 : s.x2.toNat ≠ 1 := fun h => one (BitVec.eq_of_toNat_eq h)
        omega
      · rw [remainder_toNat _ _ zero, zext128_toNat]
      · simp [stepMeStart, operandModulus, operandBase, operandExp, zero, one]

/-- All that the ME_LOOP step can do with a modulus that is not 0 (R113). -/
theorem stepMeLoop_cases (s : State) (hm : s.x2.toNat ≠ 0) :
    (s.e.toNat = 0 ∧ stepMeLoop s = .next (complete s.acc s)) ∨
    (s.e.toNat ≠ 0 ∧ ∃ acc' sq' : Word,
      acc'.toNat = (if s.e.toNat % 2 = 1 then (s.acc.toNat * s.sq.toNat) % s.x2.toNat else s.acc.toNat) ∧
      sq'.toNat = (s.sq.toNat * s.sq.toNat) % s.x2.toNat ∧
      stepMeLoop s = .next { s with acc := acc', sq := sq', e := shiftRight1 s.e }) := by
  have ne : s.x2 ≠ 0#64 := fun h => hm ((toNat_eq_zero_iff _).1 h)
  by_cases zero : s.e = 0#64
  · exact .inl ⟨by rw [zero]; rfl, by simp [stepMeLoop, zero]⟩
  · refine .inr ⟨fun h => zero ((toNat_eq_zero_iff _).2 h),
      if bit0 s.e then remainder (product s.acc s.sq) s.x2 else s.acc, remainder (product s.sq s.sq) s.x2, ?_, ?_, ?_⟩
    · by_cases odd : s.e.toNat % 2 = 1
      · rw [if_pos ((bit0_iff _).2 odd), if_pos odd, remainder_toNat _ _ ne, product_toNat]
      · rw [if_neg (fun h => odd ((bit0_iff _).1 h)), if_neg odd]
    · rw [remainder_toNat _ _ ne, product_toNat]
    · simp [stepMeLoop, operandModulus, zero, withRemainder_of_ne ne]

/-- A modulus of 0 in the loop, which no reachable state has: the loop ends or the model stops (R8). -/
theorem stepMeLoop_zero (s : State) (hm : s.x2.toNat = 0) :
    (s.e.toNat = 0 ∧ stepMeLoop s = .next (complete s.acc s)) ∨
    (s.e.toNat ≠ 0 ∧ stepMeLoop s = .fault .remainderByZero) := by
  have m0 : s.x2 = 0#64 := (toNat_eq_zero_iff _).2 hm
  by_cases zero : s.e = 0#64
  · exact .inl ⟨by rw [zero]; rfl, by simp [stepMeLoop, zero]⟩
  · exact .inr ⟨fun h => zero ((toNat_eq_zero_iff _).2 h), by simp [stepMeLoop, operandModulus, zero, m0, withRemainder]⟩

/-- The two shapes of a loop step that answers: the divisor, or the modulus when it is needed, is not 0. -/
theorem stepTdLoop_next_ne {s t : State} (h : stepTdLoop s = .next t) : s.i.toNat ≠ 0 := by
  intro zero
  rw [stepTdLoop_zero s zero] at h
  cases h

/-- One engine step that answers: nothing, or one of the ten rows of R39 that the engine makes. -/
theorem engineStep_cases {s t : State} (h : engineStep s = .next t) :
    (s.busy = false ∧ t = s) ∨
    (s.phase = .tdStart ∧ s.x0.toNat < 2 ∧ t = complete 0#64 s) ∨
    (s.phase = .tdStart ∧ s.x0.toNat = 2 ∧ t = complete 1#64 s) ∨
    (s.phase = .tdStart ∧ 2 < s.x0.toNat ∧ s.x0.toNat % 2 = 0 ∧ t = complete 0#64 s) ∨
    (s.phase = .tdStart ∧ 3 ≤ s.x0.toNat ∧ s.x0.toNat % 2 = 1 ∧ t = { s with i := 3#64, phase := .tdLoop }) ∨
    (s.phase = .tdLoop ∧ s.x0.toNat < s.i.toNat * s.i.toNat ∧ t = complete 1#64 s) ∨
    (s.phase = .tdLoop ∧ s.i.toNat * s.i.toNat ≤ s.x0.toNat ∧ s.i.toNat ∣ s.x0.toNat ∧ t = complete 0#64 s) ∨
    (s.phase = .tdLoop ∧ s.i.toNat * s.i.toNat ≤ s.x0.toNat ∧ ¬ s.i.toNat ∣ s.x0.toNat ∧
      t = { s with i := nextDivisor s.i }) ∨
    (s.phase = .meStart ∧ s.x2.toNat = 0 ∧ t = raise .modZero s) ∨
    (s.phase = .meStart ∧ s.x2.toNat = 1 ∧ t = complete 0#64 s) ∨
    (s.phase = .meStart ∧ 2 ≤ s.x2.toNat ∧ ∃ sq' : Word, sq'.toNat = s.x0.toNat % s.x2.toNat ∧
      t = { s with acc := 1#64, sq := sq', e := s.x1, phase := .meLoop }) ∨
    (s.phase = .meLoop ∧ s.e.toNat = 0 ∧ t = complete s.acc s) ∨
    (s.phase = .meLoop ∧ s.e.toNat ≠ 0 ∧ s.x2.toNat ≠ 0 ∧ ∃ acc' sq' : Word,
      acc'.toNat = (if s.e.toNat % 2 = 1 then (s.acc.toNat * s.sq.toNat) % s.x2.toNat else s.acc.toNat) ∧
      sq'.toNat = (s.sq.toNat * s.sq.toNat) % s.x2.toNat ∧
      t = { s with acc := acc', sq := sq', e := shiftRight1 s.e }) := by
  cases hp : s.phase with
  | idle =>
    rw [engineStep, hp] at h
    cases h
    exact .inl ⟨by simp [State.busy, hp], rfl⟩
  | faulted =>
    rw [engineStep, hp] at h
    cases h
    exact .inl ⟨by simp [State.busy, hp], rfl⟩
  | tdStart =>
    rw [engineStep, hp] at h
    rcases stepTdStart_cases s with ⟨a, b⟩ | ⟨a, b⟩ | ⟨a, a', b⟩ | ⟨a, a', b⟩ <;>
      · have ht := b.symm.trans h
        cases ht
        simp_all
  | tdLoop =>
    rw [engineStep, hp] at h
    rcases stepTdLoop_cases s (stepTdLoop_next_ne h) with ⟨a, b⟩ | ⟨a, a', b⟩ | ⟨a, a', b⟩ <;>
      · have ht := b.symm.trans h
        cases ht
        simp_all
  | meStart =>
    rw [engineStep, hp] at h
    rcases stepMeStart_cases s with ⟨a, b⟩ | ⟨a, b⟩ | ⟨a, a', b⟩
    · cases b.symm.trans h; simp_all
    · cases b.symm.trans h; simp_all
    · cases b.symm.trans h
      simp only [reduceCtorEq, false_and, false_or, true_and]
      exact .inr (.inr (.inr (.inl ⟨a, _, a', rfl⟩)))
  | meLoop =>
    rw [engineStep, hp] at h
    by_cases zero : s.x2.toNat = 0
    · rcases stepMeLoop_zero s zero with ⟨a, b⟩ | ⟨a, b⟩
      · cases b.symm.trans h; simp_all
      · cases b.symm.trans h
    · rcases stepMeLoop_cases s zero with ⟨a, b⟩ | ⟨a, acc', sq', ha, hs, b⟩
      · cases b.symm.trans h; simp_all
      · cases b.symm.trans h
        simp only [reduceCtorEq, false_and, false_or, true_and]
        exact .inr (.inr ⟨a, zero, acc', sq', ha, hs, by rw [hp]⟩)

/-- An engine step leaves the operands, WDROP, the schedule and the answers as they are (R23, R32). -/
theorem engineStep_keeps {s t : State} (h : engineStep s = .next t) :
    t.x0 = s.x0 ∧ t.x1 = s.x1 ∧ t.x2 = s.x2 ∧ t.wdrop = s.wdrop ∧ t.pending = s.pending ∧ t.answers = s.answers := by
  rcases engineStep_cases h with ⟨-, rfl⟩ | ⟨-, -, rfl⟩ | ⟨-, -, rfl⟩ | ⟨-, -, -, rfl⟩ | ⟨-, -, -, rfl⟩ | ⟨-, -, rfl⟩ |
    ⟨-, -, -, rfl⟩ | ⟨-, -, -, rfl⟩ | ⟨-, -, rfl⟩ | ⟨-, -, rfl⟩ | ⟨-, -, _, -, rfl⟩ | ⟨-, -, rfl⟩ |
    ⟨-, -, -, _, _, -, -, rfl⟩ <;> simp

/-- A trial divisor within the bound lies below 2^32 (R96). -/
theorem divisor_lt_of_square_le {i n : Nat} (hn : n < 2 ^ 64) (h : i * i ≤ n) : i < 2 ^ 32 := by
  by_contra hc
  have : 2 ^ 32 * 2 ^ 32 ≤ i * i := Nat.mul_le_mul (by omega) (by omega)
  omega

end Sys2Proof.Machine
end

