-- ==== Sys2Proof/Laws/PerInstr.lean ====
section
/-! SUPPORT. The family TableRow: the encoding of an instruction has the width of its row of spec/opcode_table.json and
carries the row's fixed bits. -/

namespace Sys2Proof.Laws.TableRow

/-- The encoded word has its row's width and equals the row's match under the row's mask (R71, R73). -/
def Statement (i : Instr) : Prop :=
  (encode i).width = i.row.width ∧ (encode i).toNat &&& i.row.mask = i.row.matchWord

theorem isprime : Statement .isprime := ⟨rfl, rfl⟩

theorem modexp : Statement .modexp := ⟨rfl, rfl⟩

/-- Bit 67 alone, of a T word read as a number. -/
theorem and_bit67 (we : Bool) (loc : Loc) (data : Word) :
    (tWord we loc data).toNat &&& 2 ^ 67 = if we then 2 ^ 67 else 0 := by
  have bit : (tWord we loc data).toNat.testBit 67 = we := by
    show (tWord we loc data).getLsbD 67 = we
    simp only [tWord, BitVec.getLsbD_append]
    cases we <;> rfl
  rw [Nat.and_two_pow, bit]
  cases we <;> rfl

theorem wr (loc : Loc) (data : Word) : Statement (.wr loc data) :=
  ⟨rfl, and_bit67 true loc data⟩

theorem rd (loc : Loc) (data : Word) : Statement (.rd loc data) :=
  ⟨rfl, and_bit67 false loc data⟩

end Sys2Proof.Laws.TableRow
end

