-- ==== Sys2Proof/Laws/Step.lean ====
section
/-! SUPPORT. What one instruction and one step can do, said once. -/

namespace Sys2Proof.Machine

theorem exec_isprime (s : State) : exec .isprime s = .next (issue .isprime s) := rfl
theorem exec_modexp (s : State) : exec .modexp s = .next (issue .modexp s) := rfl
theorem exec_wr (loc : Loc) (v : Word) (s : State) : exec (.wr loc v) s = .next (memWrite loc v s) := rfl
theorem exec_rd (loc : Loc) (v : Word) (s : State) : exec (.rd loc v) s = .next (answer (memRead loc s) s) := rfl

/-- Every instruction answers a next state, in every state. -/
theorem exec_answers (i : Instr) (s : State) : ∃ t, exec i s = .next t := by
  cases i <;> exact ⟨_, rfl⟩

/-- A write to CMD of a command's word is that command's issue (R80). -/
theorem memWrite_cmd_isprime (s : State) : memWrite .cmd isprimeWord s = issue .isprime s := by
  rcases phase_cases s.phase with h | h | h
  · rw [memWrite, issue, writeGate_idle h, writeGate_idle h]; exact command_isprime s
  · rw [memWrite, issue, writeGate_faulted h, writeGate_faulted h]
  · rw [memWrite, issue, writeGate_busy h, writeGate_busy h]

theorem memWrite_cmd_modexp (s : State) : memWrite .cmd modexpWord s = issue .modexp s := by
  rcases phase_cases s.phase with h | h | h
  · rw [memWrite, issue, writeGate_idle h, writeGate_idle h]; exact command_modexp s
  · rw [memWrite, issue, writeGate_faulted h, writeGate_faulted h]
  · rw [memWrite, issue, writeGate_busy h, writeGate_busy h]

/-- All that a write can do while IDLE, by its effect. -/
theorem writeIdle_cases (loc : Loc) (v : Word) (s : State) :
    (loc = .op0 ∧ writeIdle loc v s = { s with x0 := v }) ∨
    (loc = .op1 ∧ writeIdle loc v s = { s with x1 := v }) ∨
    (loc = .op2 ∧ writeIdle loc v s = { s with x2 := v }) ∨
    (loc = .cmd ∧ ∃ c, decodeC v = .ok c ∧ writeIdle loc v s = accept c s) ∨
    (loc = .cmd ∧ v ≠ isprimeWord ∧ v ≠ modexpWord ∧ writeIdle loc v s = raise .illegalCmd s) ∨
    (writeIdle loc v s = s) := by
  cases loc with
  | op0 => simp [writeIdle]
  | op1 => simp [writeIdle]
  | op2 => simp [writeIdle]
  | cmd =>
    rcases command_cases v s with ⟨c, hc, h⟩ | ⟨h1, h2, h⟩
    · exact .inr (.inr (.inr (.inl ⟨rfl, c, hc, h⟩)))
    · exact .inr (.inr (.inr (.inr (.inl ⟨rfl, h1, h2, h⟩))))
  | status => simp [writeIdle]
  | res => simp [writeIdle]
  | cause => simp [writeIdle]
  | reserved => simp [writeIdle]

/-- All that an instruction can do to the state, by its effect. -/
theorem exec_cases {i : Instr} {s t : State} (h : exec i s = .next t) :
    (∃ loc v, i = .rd loc v ∧ t = answer (memRead loc s) s) ∨
    (s.phase = .faulted ∧ (∀ loc v, i ≠ .rd loc v) ∧ t = s) ∨
    (s.busy = true ∧ (∀ loc v, i ≠ .rd loc v) ∧ t = { s with wdrop := true }) ∨
    (s.phase = .idle ∧
      ((∃ v, i = .wr .op0 v ∧ t = { s with x0 := v }) ∨
       (∃ v, i = .wr .op1 v ∧ t = { s with x1 := v }) ∨
       (∃ v, i = .wr .op2 v ∧ t = { s with x2 := v }) ∨
       (∃ c, (i = c.instr ∨ ∃ v, i = .wr .cmd v ∧ decodeC v = .ok c) ∧ t = accept c s) ∨
       (∃ v, i = .wr .cmd v ∧ v ≠ isprimeWord ∧ v ≠ modexpWord ∧ t = raise .illegalCmd s) ∨
       t = s)) := by
  cases i with
  | isprime =>
    cases h
    rcases writeGate_cases (accept .isprime) s with ⟨hp, he⟩ | ⟨hp, he⟩ | ⟨hp, he⟩
    · exact .inr (.inl ⟨hp, nofun, he⟩)
    · exact .inr (.inr (.inl ⟨hp, nofun, he⟩))
    · exact .inr (.inr (.inr ⟨hp, .inr (.inr (.inr (.inl ⟨.isprime, .inl rfl, he⟩)))⟩))
  | modexp =>
    cases h
    rcases writeGate_cases (accept .modexp) s with ⟨hp, he⟩ | ⟨hp, he⟩ | ⟨hp, he⟩
    · exact .inr (.inl ⟨hp, nofun, he⟩)
    · exact .inr (.inr (.inl ⟨hp, nofun, he⟩))
    · exact .inr (.inr (.inr ⟨hp, .inr (.inr (.inr (.inl ⟨.modexp, .inl rfl, he⟩)))⟩))
  | rd loc v =>
    cases h
    exact .inl ⟨loc, v, rfl, rfl⟩
  | wr loc v =>
    cases h
    rcases writeGate_cases (writeIdle loc v) s with ⟨hp, he⟩ | ⟨hp, he⟩ | ⟨hp, he⟩
    · exact .inr (.inl ⟨hp, nofun, he⟩)
    · exact .inr (.inr (.inl ⟨hp, nofun, he⟩))
    · refine .inr (.inr (.inr ⟨hp, ?_⟩))
      rcases writeIdle_cases loc v s with ⟨rfl, e⟩ | ⟨rfl, e⟩ | ⟨rfl, e⟩ | ⟨rfl, c, hc, e⟩ | ⟨rfl, h1, h2, e⟩ | e
      · exact .inl ⟨v, rfl, he.trans e⟩
      · exact .inr (.inl ⟨v, rfl, he.trans e⟩)
      · exact .inr (.inr (.inl ⟨v, rfl, he.trans e⟩))
      · exact .inr (.inr (.inr (.inl ⟨c, .inr ⟨v, rfl, hc⟩, he.trans e⟩)))
      · exact .inr (.inr (.inr (.inr (.inl ⟨v, rfl, h1, h2, he.trans e⟩))))
      · exact .inr (.inr (.inr (.inr (.inr (he.trans e)))))

theorem step_engine {s u : State} (h : EngineNext s u) : step s = engineStep u := by
  rcases h with ⟨hp, rfl⟩ | ⟨rest, hp, rfl⟩
  · rw [step, nextTurn_nil hp]
  · rw [step, nextTurn_cons hp]

theorem step_host {s u : State} {w : TWord} (h : HostNext s w u) : step s = exec (decodeT w) u := by
  obtain ⟨rest, hp, rfl⟩ := h
  rw [step, nextTurn_cons hp]

theorem step_reset {s : State} {rest : List Turn} (h : s.pending = .reset :: rest) :
    step s = .next { State.reset with pending := rest, answers := s.answers } := by
  rw [step, nextTurn_cons h]
  rfl

/-- Every state has exactly one kind of next transition (R14). -/
theorem next_turn_cases (s : State) :
    (∃ u, EngineNext s u) ∨ (∃ w u, HostNext s w u) ∨ (∃ rest, s.pending = .reset :: rest) := by
  cases h : s.pending with
  | nil => exact .inl ⟨s, .inl ⟨h, rfl⟩⟩
  | cons t rest =>
    cases t with
    | host w => exact .inr (.inl ⟨w, _, rest, h, rfl⟩)
    | engine => exact .inl ⟨_, .inr ⟨rest, h, rfl⟩⟩
    | reset => exact .inr (.inr ⟨rest, rfl⟩)

/-- All that a step can do, by the kind of its transition (R14). -/
theorem step_cases {s t : State} (h : step s = .next t) :
    (∃ u, EngineNext s u ∧ engineStep u = .next t) ∨
    (∃ w u, HostNext s w u ∧ exec (decodeT w) u = .next t) ∨
    (∃ rest, s.pending = .reset :: rest ∧ t = { State.reset with pending := rest, answers := s.answers }) := by
  rcases next_turn_cases s with ⟨u, hu⟩ | ⟨w, u, hu⟩ | ⟨rest, hr⟩
  · exact .inl ⟨u, hu, (step_engine hu).symm.trans h⟩
  · exact .inr (.inl ⟨w, u, hu, (step_host hu).symm.trans h⟩)
  · refine .inr (.inr ⟨rest, hr, ?_⟩)
    have := (step_reset hr).symm.trans h
    cases this
    rfl

/-- A step in IDLE or FAULTED of an engine turn, or with no turn left, takes that turn off and does nothing else (R159). -/
theorem step_ended {s : State} (h : s.ended = true) :
    step s = .next { s with pending := s.pending.tail } ∧ State.ended { s with pending := s.pending.tail } = true := by
  obtain ⟨hd, hq⟩ : s.hostDone = true ∧ s.quiescent = true := by simpa [State.ended] using h
  have rests : ∀ p, engineStep { s with pending := p } = .next { s with pending := p } := fun p => by
    cases hp : s.phase <;> simp [State.quiescent, State.busy, hp] at hq <;> simp [engineStep]
  have next : EngineNext s { s with pending := s.pending.tail } := by
    rcases s with ⟨⟩
    rename_i pending _
    rcases pending with _ | ⟨t, rest⟩
    · exact .inl ⟨rfl, rfl⟩
    · cases t <;> first | exact .inr ⟨rest, rfl, rfl⟩ | simp [State.hostDone, Turn.isEngine] at hd
  refine ⟨(step_engine next).trans (rests _), ?_⟩
  have : State.hostDone { s with pending := s.pending.tail } = true := by
    rw [State.hostDone, List.all_eq_true] at hd ⊢
    exact fun t ht => hd t (List.mem_of_mem_tail ht)
  rw [State.ended, this]
  exact hq

/-- The next transition is one of a kind: no state has two (R14, R138). -/
theorem engineNext_unique {s u v : State} (h : EngineNext s u) (h' : EngineNext s v) : v = u := by
  rcases h with ⟨a, rfl⟩ | ⟨r, a, rfl⟩ <;> rcases h' with ⟨b, rfl⟩ | ⟨r', b, rfl⟩ <;>
    first | rfl | (rw [a] at b; cases b <;> rfl)

theorem hostNext_unique {s u v : State} {w w' : TWord} (h : HostNext s w u) (h' : HostNext s w' v) : w' = w ∧ v = u := by
  obtain ⟨r, a, rfl⟩ := h
  obtain ⟨r', b, rfl⟩ := h'
  rw [a] at b
  cases b
  exact ⟨rfl, rfl⟩

theorem engineNext_not_hostNext {s u v : State} {w : TWord} (h : EngineNext s u) : ¬ HostNext s w v := by
  rintro ⟨r', b, -⟩
  rcases h with ⟨a, -⟩ | ⟨r, a, -⟩ <;> rw [a] at b <;> cases b

theorem engineNext_not_resetNext {s u : State} (h : EngineNext s u) : ¬ ResetNext s := by
  rintro ⟨r', b⟩
  rcases h with ⟨a, -⟩ | ⟨r, a, -⟩ <;> rw [a] at b <;> cases b

theorem hostNext_not_resetNext {s u : State} {w : TWord} (h : HostNext s w u) : ¬ ResetNext s := by
  rintro ⟨r', b⟩
  obtain ⟨r, a, -⟩ := h
  rw [a] at b
  cases b

/-- Taking a turn off the schedule touches nothing but the schedule. -/
theorem engineNext_eq {s u : State} (h : EngineNext s u) : u = { s with pending := u.pending } := by
  rcases h with ⟨_, rfl⟩ | ⟨_, _, rfl⟩ <;> rfl

theorem hostNext_eq {s u : State} {w : TWord} (h : HostNext s w u) : u = { s with pending := u.pending } := by
  obtain ⟨_, _, rfl⟩ := h
  rfl

end Sys2Proof.Machine
end

