-- ==== Sys2Proof/Tests/Slice0.lean ====
section
/-! SUPPORT. The model's own tests, each with its source in spec/, and a witness for the hypotheses of each obligation. -/

namespace Sys2Proof.Tests
open Sys2Proof Sys2Proof.Machine

/-! ### Helpers -/

/-- The next state of an outcome, if there is one. -/
def out : Host.Outcome State Fault Refusal → Option State
  | .next s => some s
  | .fault _ => none
  | .refused _ => none

/-- A unit in PHASE `p` with the operands given, otherwise as after reset. -/
def inPhase (p : Phase) (x0 x1 x2 : Word) : State := { State.reset with phase := p, x0 := x0, x1 := x1, x2 := x2 }

/-- A unit in PHASE ME_LOOP, base 0 and exponent 0, with the modulus and the working registers given. -/
def inMeLoop (m acc sq e : Word) : State := { inPhase .meLoop 0#64 0#64 m with acc := acc, sq := sq, e := e }

/-- A unit in PHASE TD_LOOP with the operand and the divisor given. -/
def inTdLoop (n i : Word) : State := { inPhase .tdLoop n 0#64 0#64 with i := i }

/-! ### Well-formedness -/

/-- 30_encoding.md R71: the data of a `rd` is canonically 0. -/
theorem test_rd_with_data_is_not_canonical : Instr.canonical (.rd .op0 5#64) = false := by decide
theorem test_rd_without_data_is_canonical : Instr.canonical (.rd .res 0#64) = true := by decide
theorem test_wr_is_canonical : Instr.canonical (.wr .reserved 0xFFFFFFFFFFFFFFFF#64) = true := by decide
theorem test_commands_are_canonical : Instr.canonical .isprime = true ∧ Instr.canonical .modexp = true := by decide

/-! ### Decoding and encoding -/

/-- 30_encoding.md R73. -/
theorem test_decode_isprime : decodeTableWord 64 0x0000000000000001 = some .isprime := rfl
/-- 30_encoding.md R73. -/
theorem test_decode_modexp : decodeTableWord 64 0x0000000000000002 = some .modexp := rfl
/-- Program P1 of 95_test_vectors.md: `wr EXP, 5`. -/
theorem test_decode_wr : decodeTableWord 68 0x90000000000000005 = some (.wr .op1 5#64) := rfl
/-- Program P1 of 95_test_vectors.md: `rd RES`. -/
theorem test_decode_rd : decodeTableWord 68 0x50000000000000000 = some (.rd .res 0#64) := rfl
/-- R71: bit 67 = 1 alone is a `wr` of 0 to index 0; the word is nine bytes. -/
theorem test_decode_wr_bytes : decodeTableWord 72 0x80000000000000000 = some (.wr .op0 0#64) := rfl
/-- R71: the last word, all 68 bits set. -/
theorem test_decode_wr_all_ones :
    decodeTableWord 68 0xFFFFFFFFFFFFFFFFF = some (.wr .reserved 0xFFFFFFFFFFFFFFFF#64) := rfl
/-- R75: the example of the rule, and opcode 0. -/
theorem test_decode_illegal_command : decodeTableWord 64 0x11 = none ∧ decodeTableWord 64 0 = none := ⟨rfl, rfl⟩
/-- R77: no other length exists. -/
theorem test_decode_other_widths : decodeTableWord 32 1 = none ∧ decodeTableWord 68 (2 ^ 68) = none := ⟨rfl, rfl⟩
/-- Nothing is presented for a number that is no word of the unit (log 16); an illegal command word is one (R75). -/
theorem test_only_words_are_presented :
    State.reset.withFetchWord 32 1 = State.reset ∧ State.reset.withFetchWord 68 (2 ^ 68) = State.reset ∧
    (State.reset.withFetchWord 64 0x11).pending = [.host 0xB0000000000000011#68] := ⟨rfl, rfl, rfl⟩
/-- Program P6 of 95_test_vectors.md: `wr MOD, 1073707009`. -/
theorem test_encode_wr : encode (.wr .op2 1073707009#64) = .t 0xA000000003FFF7801#68 := rfl
/-- Program P4 of 95_test_vectors.md: `rd CAUSE`. -/
theorem test_encode_rd : encode (.rd .cause 0#64) = .t 0x60000000000000000#68 := rfl
/-- R73. -/
theorem test_encode_commands : encode .isprime = .c 0x1#64 ∧ encode .modexp = .c 0x2#64 := ⟨rfl, rfl⟩
/-- R79: the names of the script notation. -/
theorem test_script_names :
    RegName.loc .N = .op0 ∧ RegName.loc .BASE = .op0 ∧ RegName.loc .EXP = .op1 ∧ RegName.loc .MOD = .op2 ∧
    RegName.loc (.r 7#3) = .reserved := by decide

/-! ### One step of each instruction -/

/-- Vector V63 of 95_test_vectors.md. -/
theorem test_wr_illegal_command :
    out (exec (.wr .cmd 0#64) State.reset) = some { State.reset with phase := .faulted, cause := 2#2 } := rfl
/-- Vector V61: all 64 bits are held. -/
theorem test_wr_op1 :
    out (exec (.wr .op1 0x8000000000000001#64) State.reset) = some { State.reset with x1 := 0x8000000000000001#64 } := rfl
/-- Vector V78: STATUS with DONE, FAULT and WDROP set reads 0xE. -/
theorem test_rd_status :
    (out (exec (.rd .status 0#64) { State.reset with phase := .faulted, done := true, wdrop := true, cause := 2#2 })).map
      State.answers = some [0xE#64] := rfl
/-- Vector V68: CAUSE reads 1 after MOD_ZERO, whatever the data bits of the read. -/
theorem test_rd_cause :
    (out (exec (.rd .cause 0xFF#64) { State.reset with phase := .faulted, cause := 1#2 })).map State.answers =
      some [1#64] := rfl
/-- Vector V77: STATUS reads 0x1 after `isprime` straight after reset. -/
theorem test_isprime_is_accepted : (out (exec .isprime State.reset)).map (memRead .status) = some 1#64 := rfl
/-- Vector V70: dropped while FAULTED, and WDROP not set. -/
theorem test_isprime_while_faulted :
    out (exec .isprime { State.reset with phase := .faulted, cause := 2#2 }) =
      some { State.reset with phase := .faulted, cause := 2#2 } := rfl
/-- Vector V69: DONE is cleared at acceptance although the modulus is 0. -/
theorem test_modexp_is_accepted :
    out (exec .modexp { State.reset with x0 := 7#64, x3 := 1#64, done := true }) =
      some { State.reset with x0 := 7#64, x3 := 1#64, phase := .meStart } := rfl
/-- Vector V72: a command while BUSY sets WDROP and is not executed. -/
theorem test_modexp_while_busy :
    out (exec .modexp (inPhase .meLoop 3#64 5#64 7#64)) = some { inPhase .meLoop 3#64 5#64 7#64 with wdrop := true } := rfl

/-! ### One engine step of each kind, at the values where the cases meet -/

/-- Vectors V2, V3, V5, V4: n = 1, 2, 4, 3. -/
theorem test_td_start_one :
    out (step (inPhase .tdStart 1#64 0#64 0#64)) = some { inPhase .idle 1#64 0#64 0#64 with done := true } := rfl
theorem test_td_start_two :
    out (step (inPhase .tdStart 2#64 0#64 0#64)) =
      some { inPhase .idle 2#64 0#64 0#64 with x3 := 1#64, done := true } := rfl
theorem test_td_start_four :
    out (step (inPhase .tdStart 4#64 0#64 0#64)) = some { inPhase .idle 4#64 0#64 0#64 with done := true } := rfl
theorem test_td_start_three : out (step (inPhase .tdStart 3#64 0#64 0#64)) = some (inTdLoop 3#64 3#64) := rfl

/-- Vector V15: the last step on 2^64 - 59, where a 64-bit square wraps. -/
theorem test_td_loop_bound_is_128_bits :
    out (step (inTdLoop 0xFFFFFFFFFFFFFFC5#64 0x100000001#64)) =
      some { inTdLoop 0xFFFFFFFFFFFFFFC5#64 0x100000001#64 with phase := .idle, x3 := 1#64, done := true } := rfl
/-- Vector V17: the deciding step on (2^32 - 5)^2, where the square equals n. -/
theorem test_td_loop_bound_is_strict :
    out (step (inTdLoop 0xFFFFFFF600000019#64 0xFFFFFFFB#64)) =
      some { inTdLoop 0xFFFFFFF600000019#64 0xFFFFFFFB#64 with phase := .idle, done := true } := rfl
/-- 40_isprime.md section 4: n = 49 at I = 3. -/
theorem test_td_loop_next_divisor : out (step (inTdLoop 49#64 3#64)) = some (inTdLoop 49#64 5#64) := rfl

/-- Vectors V42, V27, V40 at their first step: modulus 0, 1, and a base above the modulus. -/
theorem test_me_start_zero :
    out (step (inPhase .meStart 5#64 3#64 0#64)) = some { inPhase .faulted 5#64 3#64 0#64 with cause := 1#2 } := rfl
theorem test_me_start_one :
    out (step (inPhase .meStart 7#64 0#64 1#64)) = some { inPhase .idle 7#64 0#64 1#64 with done := true } := rfl
theorem test_me_start_reduces_base :
    out (step (inPhase .meStart 0xFFFFFFFFFFFFFFFF#64 2#64 0xFFFFFFFFFFFFFFFD#64)) =
      some { inPhase .meLoop 0xFFFFFFFFFFFFFFFF#64 2#64 0xFFFFFFFFFFFFFFFD#64 with
        acc := 1#64, sq := 2#64, e := 2#64 } := rfl

/-- Vector V33: the square is exactly 2^64, one more than 64 bits hold. -/
theorem test_me_loop_product_is_128_bits :
    out (step (inMeLoop 0xFFFFFFFFFFFFFFFF#64 1#64 4294967296#64 2#64)) =
      some (inMeLoop 0xFFFFFFFFFFFFFFFF#64 1#64 1#64 1#64) := rfl
/-- Vector V32: a set bit multiplies by the square of before the step. -/
theorem test_me_loop_multiplies :
    out (step (inMeLoop 497#64 4#64 256#64 3#64)) = some (inMeLoop 497#64 30#64 429#64 1#64) := rfl
/-- Vector V31: E = 0 completes with ACC. -/
theorem test_me_loop_completes :
    out (step (inMeLoop 7#64 5#64 2#64 0#64)) =
      some { inMeLoop 7#64 5#64 2#64 0#64 with phase := .idle, x3 := 5#64, done := true } := rfl

/-- Vector V75: reset in the middle of an operation. -/
theorem test_reset_aborts :
    out (step ((inTdLoop 1073707009#64 201#64).withTurns [.reset])) = some State.reset := rfl
/-- R8: the one stop of the model, in a state that no run reaches (log 7). -/
theorem test_remainder_by_zero_stops : step (inTdLoop 9#64 0#64) = .fault .remainderByZero := rfl
/-- R60's recommended wrapper: offset 24 is CMD, little-endian. -/
theorem test_recommended_wrapper :
    recommendedWrapper 0x1000 ⟨true, 0x1018, 8, [2#8, 0#8, 0#8, 0#8, 0#8, 0#8, 0#8, 0#8]⟩ = some 0xB0000000000000002#68 ∧
    recommendedWrapper 0x1000 ⟨true, 0x101C, 8, [2#8, 0#8, 0#8, 0#8, 0#8, 0#8, 0#8, 0#8]⟩ = none ∧
    recommendedWrapper 0x1000 ⟨false, 0x1018, 4, []⟩ = none := by decide
/-- R60, naturally aligned accesses only: at base 4 the 8-byte access at address 4 is refused. -/
theorem test_recommended_wrapper_is_naturally_aligned : recommendedWrapper 4 ⟨false, 4, 8, []⟩ = none := by decide
/-- R60: what is refused does not reach the unit; what is not becomes one transaction. -/
theorem test_recommended_wrapper_presents :
    (presentAccess (recommendedHostWrapper 0) [] ⟨false, 32, 4, []⟩ State.reset).pending = [] ∧
    (presentAccess (recommendedHostWrapper 0) [] ⟨false, 32, 8, []⟩ State.reset).pending =
      [.host 0x40000000000000000#68] := by decide
/-- R159: a run has not ended while the host has a transaction to issue, and has ended well after the last. -/
theorem test_run_ends_after_last_transaction :
    (State.reset.withTurns [.host 0x90000000000000005#68]).endedWell = false ∧
    (State.reset.withTurns [.engine]).endedWell = true ∧ State.reset.endedWell = true := by decide
/-- R159, at the end of vector V71: WDROP = 1 is a run in which the hazard was violated. -/
theorem test_run_with_dropped_write :
    State.ended { State.reset with x0 := 4#64, done := true, wdrop := true } = true ∧
    State.endedWell { State.reset with x0 := 4#64, done := true, wdrop := true } = false := by decide

/-! ### Witnesses: concrete states and operands that meet the hypotheses of the obligations -/

theorem engineNext_none {s : State} (h : s.pending = []) : EngineNext s s := .inl ⟨h, rfl⟩

/-- EveryOtherCommandWordIsIllegal, at the words next to the two commands. -/
theorem witness_EveryOtherCommandWordIsIllegal :
    (0#64 : Word) ≠ 1#64 ∧ (0#64 : Word) ≠ 2#64 ∧ (3#64 : Word) ≠ 1#64 ∧ (3#64 : Word) ≠ 2#64 ∧
    State.reset.phase = .idle := by decide

/-- EncodeInvertsDecode, a `rd` word with data that is not 0 among them (log 9). -/
theorem witness_EncodeInvertsDecode :
    decode (.c 2#64) = .ok .modexp ∧ decode (.t 0xB0000000000000002#68) = .ok (.wr .cmd 2#64) ∧
    decode (.t 0x50000000000000007#68) = .ok (.rd .res 7#64) := ⟨rfl, rfl, rfl⟩

theorem witness_StepRunsDecodedInstruction :
    (State.reset.withTurns [.host 0x90000000000000005#68]).pending = .host 0x90000000000000005#68 :: [] ∧
    decode (.t 0x90000000000000005#68) = .ok (.wr .op1 5#64) := ⟨rfl, rfl⟩

theorem witness_FetchedWordRunsNext :
    decodeTableWord 64 2 = some .modexp ∧ decodeTableWord 68 0x40000000000000000 = some (.rd .status 0#64) ∧
    decodeTableWord 72 0xB0000000000000003 = some (.wr .cmd 3#64) := ⟨rfl, rfl, rfl⟩

/-- OperandWriteWhenIdle, ReadOnlyWriteDroppedWhenIdle, IsprimeAcceptedWhenIdle, ModexpAcceptedWhenIdle, and the write clause
of StatusWordLayout. -/
theorem witness_idle : State.reset.phase = .idle ∧ ({ State.reset with done := true, x3 := 1#64 } : State).phase = .idle := by
  decide

/-- WriteWhileBusyOnlySetsWdrop, in each of the four phases. -/
theorem witness_busy :
    (inPhase .tdStart 7#64 0#64 0#64).busy = true ∧ (inTdLoop 7#64 3#64).busy = true ∧
    (inPhase .meStart 3#64 5#64 7#64).busy = true ∧ (inMeLoop 7#64 1#64 3#64 5#64).busy = true := by decide

/-- WriteWhileFaultedDropped, FaultedLeftOnlyByReset. -/
theorem witness_faulted :
    (inPhase .faulted 1#64 2#64 3#64).phase = .faulted ∧
    ¬ ResetNext (inPhase .faulted 1#64 2#64 3#64) ∧
    ResetNext ((inPhase .faulted 1#64 2#64 3#64).withTurns [.reset]) :=
  ⟨rfl, nofun, [], rfl⟩

/-- InstructionFrame, one instruction of each constructor; every instruction completes in every state. -/
theorem witness_InstructionFrame :
    (∃ t, exec .isprime State.reset = .next t) ∧ (∃ t, exec .modexp (inTdLoop 9#64 3#64) = .next t) ∧
    (∃ t, exec (.wr .cmd 0#64) State.reset = .next t) ∧ (∃ t, exec (.rd .res 0#64) State.reset = .next t) :=
  ⟨⟨_, rfl⟩, ⟨_, rfl⟩, ⟨_, rfl⟩, ⟨_, rfl⟩⟩

/-- IsprimeStartStep: n = 1, 2, 4, 3, one for each clause. -/
theorem witness_IsprimeStartStep :
    (∀ n : Word, EngineNext (inPhase .tdStart n 0#64 0#64) (inPhase .tdStart n 0#64 0#64) ∧
      (inPhase .tdStart n 0#64 0#64).phase = .tdStart) ∧
    ((inPhase .tdStart 1#64 0#64 0#64).x0.toNat < 2) ∧ (inPhase .tdStart 2#64 0#64 0#64).x0.toNat = 2 ∧
    (2 < (inPhase .tdStart 4#64 0#64 0#64).x0.toNat ∧ (inPhase .tdStart 4#64 0#64 0#64).x0.toNat % 2 = 0) ∧
    (2 < (inPhase .tdStart 3#64 0#64 0#64).x0.toNat ∧ (inPhase .tdStart 3#64 0#64 0#64).x0.toNat % 2 = 1) :=
  ⟨fun _ => ⟨engineNext_none rfl, rfl⟩, by decide, by decide, by decide, by decide⟩

/-- IsprimeLoopStep: n = 8, 9, 11 at I = 3, one for each clause. -/
theorem witness_IsprimeLoopStep :
    (∀ n : Word, EngineNext (inTdLoop n 3#64) (inTdLoop n 3#64) ∧ (inTdLoop n 3#64).phase = .tdLoop ∧
      3 ≤ (inTdLoop n 3#64).i.toNat) ∧
    ((8#64 : Word).toNat < (3#64 : Word).toNat * (3#64 : Word).toNat) ∧
    ((3#64 : Word).toNat * (3#64 : Word).toNat ≤ (9#64 : Word).toNat ∧ (9#64 : Word).toNat % (3#64 : Word).toNat = 0) ∧
    ((3#64 : Word).toNat * (3#64 : Word).toNat ≤ (11#64 : Word).toNat ∧ (11#64 : Word).toNat % (3#64 : Word).toNat ≠ 0) :=
  ⟨fun _ => ⟨engineNext_none rfl, rfl, le_refl 3⟩, by decide, by decide, by decide⟩

/-- ModexpStartStep: modulus 0, 1, 2, one for each clause. -/
theorem witness_ModexpStartStep :
    (∀ m : Word, EngineNext (inPhase .meStart 0#64 0#64 m) (inPhase .meStart 0#64 0#64 m) ∧
      (inPhase .meStart 0#64 0#64 m).phase = .meStart) ∧
    (0#64 : Word).toNat = 0 ∧ (1#64 : Word).toNat = 1 ∧ 2 ≤ (2#64 : Word).toNat :=
  ⟨fun _ => ⟨engineNext_none rfl, rfl⟩, by decide, by decide, by decide⟩

/-- ModexpLoopStep: modulus 2, E = 0 and E = 1. -/
theorem witness_ModexpLoopStep :
    (∀ e : Word, EngineNext (inMeLoop 2#64 1#64 1#64 e) (inMeLoop 2#64 1#64 1#64 e) ∧
      (inMeLoop 2#64 1#64 1#64 e).phase = .meLoop ∧ 2 ≤ (inMeLoop 2#64 1#64 1#64 e).x2.toNat) ∧
    (0#64 : Word).toNat = 0 ∧ (1#64 : Word).toNat ≠ 0 :=
  ⟨fun _ => ⟨engineNext_none rfl, rfl, le_refl 2⟩, by decide, by decide⟩

theorem witness_ModulusZeroFaults :
    (inPhase .idle 5#64 3#64 0#64).phase = .idle ∧ (inPhase .idle 5#64 3#64 0#64).x2 = 0#64 ∧
    ((inPhase .idle 5#64 3#64 0#64).withTurns [.host 0xB0000000000000002#68, .engine]).pending =
      .host 0xB0000000000000002#68 :: .engine :: [] := ⟨rfl, rfl, rfl⟩

/-- A step of each kind of transition, with the state it acts on: WdropSticky, DoneLifetime, PhaseTransitionTable,
OperandsChangeOnlyByIdleWrite, ResultWrittenOnlyAtCompletion, CauseWrittenOnlyByFaultEntry,
HiddenRegistersWrittenOnlyByTheirOperation, ResetFromAnyState, ResetKeepsHostSide. -/
theorem witness_transitions :
    (∃ t, step (inMeLoop 7#64 5#64 2#64 0#64) = .next t ∧ EngineNext (inMeLoop 7#64 5#64 2#64 0#64) (inMeLoop 7#64 5#64 2#64 0#64) ∧
      ¬ ResetNext (inMeLoop 7#64 5#64 2#64 0#64)) ∧
    (∃ t, step (State.reset.withTurns [.host 0x90000000000000005#68]) = .next t ∧
      HostNext (State.reset.withTurns [.host 0x90000000000000005#68]) 0x90000000000000005#68 State.reset ∧
      ¬ ResetNext (State.reset.withTurns [.host 0x90000000000000005#68])) ∧
    (∃ t, step ((inTdLoop 9#64 3#64).withTurns [.reset]) = .next t ∧ ResetNext ((inTdLoop 9#64 3#64).withTurns [.reset])) :=
  ⟨⟨_, rfl, engineNext_none rfl, nofun⟩, ⟨_, rfl, ⟨[], rfl, rfl⟩, nofun⟩, ⟨_, rfl, [], rfl⟩⟩

/-- WdropSticky: a write while BUSY; a read while BUSY, which is not one. -/
theorem witness_WdropSticky :
    (HostNext ((inTdLoop 97#64 5#64).withTurns [.host 0x80000000000000004#68]) 0x80000000000000004#68 (inTdLoop 97#64 5#64) ∧
      ((inTdLoop 97#64 5#64).withTurns [.host 0x80000000000000004#68]).busy = true ∧
      decodeT 0x80000000000000004#68 = .wr .op0 4#64) ∧
    (∀ w u loc v, HostNext ((inTdLoop 97#64 5#64).withTurns [.host 0x40000000000000000#68]) w u →
      ((inTdLoop 97#64 5#64).withTurns [.host 0x40000000000000000#68]).busy = true → decodeT w ≠ .wr loc v) := by
  refine ⟨⟨⟨[], rfl, rfl⟩, rfl, rfl⟩, ?_⟩
  rintro w u loc v ⟨rest, h, -⟩ -
  cases h
  nofun

/-- DoneLifetime: an acceptance, a completion, and a step that is neither. -/
theorem witness_DoneLifetime :
    (∃ t, step (State.reset.withTurns [.host 0xB0000000000000001#68]) = .next t ∧ t.busy = true) ∧
    (∃ t, step (inPhase .tdStart 2#64 0#64 0#64) = .next t ∧ t.phase = .idle) ∧
    (∃ t, step (inTdLoop 11#64 3#64) = .next t ∧ ¬ ((inTdLoop 11#64 3#64).phase = .idle ∧ t.busy = true) ∧
      ¬ ((inTdLoop 11#64 3#64).busy = true ∧ t.phase = .idle)) :=
  ⟨⟨_, rfl, rfl⟩, ⟨_, rfl, rfl⟩, ⟨_, rfl, by decide, by decide⟩⟩

/-- PhaseTransitionTable: a write to CMD while IDLE, and the two host clauses' other case. -/
theorem witness_PhaseTransitionTable :
    (HostNext (State.reset.withTurns [.host 0xB0000000000000003#68]) 0xB0000000000000003#68 State.reset ∧
      State.reset.phase = .idle ∧ decodeT 0xB0000000000000003#68 = .wr .cmd 3#64) ∧
    (∀ v, decodeT 0xA0000000000000003#68 ≠ .wr .cmd v) ∧ (inTdLoop 9#64 3#64).phase ≠ .idle :=
  ⟨⟨⟨[], rfl, rfl⟩, rfl, rfl⟩, nofun, nofun⟩

/-- FaultsArePrecise: the two faults. -/
theorem witness_FaultsArePrecise :
    (∃ t, step (State.reset.withTurns [.host 0xB0000000000000000#68]) = .next t ∧ State.reset.phase ≠ .faulted ∧
      t.phase = .faulted) ∧
    (∃ t, step (inPhase .meStart 5#64 3#64 0#64) = .next t ∧ (inPhase .meStart 5#64 3#64 0#64).phase ≠ .faulted ∧
      t.phase = .faulted) :=
  ⟨⟨_, rfl, nofun, rfl⟩, ⟨_, rfl, nofun, rfl⟩⟩

/-- ResetFromAnyState: a step that is no reset from a FAULTED state with WDROP set. -/
theorem witness_ResetFromAnyState :
    ¬ ResetNext { State.reset with phase := .faulted, cause := 2#2, wdrop := true } ∧
    (∃ t, step { State.reset with phase := .faulted, cause := 2#2, wdrop := true } = .next t) :=
  ⟨nofun, ⟨_, rfl⟩⟩

/-- IsprimeNeverFaults, StepKeepsInvariant, StepAlwaysAnswers, EveryOperationEnds: states that meet the invariant. -/
theorem witness_Inv :
    (inPhase .tdStart 0#64 0#64 0#64).Inv ∧ (inTdLoop 9#64 3#64).Inv ∧ (inMeLoop 2#64 1#64 1#64 1#64).Inv ∧
    (∃ t, step (inTdLoop 9#64 3#64) = .next t) := ⟨by decide, by decide, by decide, ⟨_, rfl⟩⟩

/-- PowerInvariantKept: 3^5 mod 7 after ME_START (vector V31). -/
theorem witness_PowerInvariantKept :
    State.PowerInv { inPhase .meLoop 3#64 5#64 7#64 with acc := 1#64, sq := 3#64, e := 5#64 } ∧
    ∃ t, step { inPhase .meLoop 3#64 5#64 7#64 with acc := 1#64, sq := 3#64, e := 5#64 } = .next t :=
  ⟨fun _ => by decide, ⟨_, rfl⟩⟩

/-- DivisorInvariantKept: n = 49 at I = 5 (40_isprime.md section 4). -/
theorem witness_DivisorInvariantKept : (inTdLoop 49#64 5#64).DivisorInv ∧ ∃ t, step (inTdLoop 49#64 5#64) = .next t := by
  refine ⟨fun _ => ⟨by decide, by decide, by decide, by decide, by decide, fun d h3 h5 _ => ?_⟩, ⟨_, rfl⟩⟩
  have h5' : d < 5 := h5
  have : d = 3 ∨ d = 4 := by omega
  rcases this with rfl | rfl <;> decide

theorem witness_IsprimeDecidesPrimality :
    State.reset.phase = .idle ∧
    (State.reset.withTurns [.host 0xB0000000000000001#68]).pending = [.host 0xB0000000000000001#68] := ⟨rfl, rfl⟩

/-- IsprimeStepCount and ModexpStepCount, with the counts of R99 and R119: n = 7 takes 2 steps, n = 49 takes 4; exponent 0
takes 2, (2, 10, 1000) takes 6. -/
theorem witness_IsprimeStepCount :
    (inPhase .tdStart 7#64 0#64 0#64).phase = .tdStart ∧ (inPhase .tdStart 7#64 0#64 0#64).pending = [] ∧
    isprimeSteps 7 = 2 ∧ isprimeSteps 49 = 4 ∧ isprimeSteps 2 = 1 := by
  refine ⟨rfl, rfl, ?_, ?_, ?_⟩ <;> norm_num [isprimeSteps]

theorem witness_ModexpStepCount :
    (inPhase .meStart 3#64 5#64 7#64).phase = .meStart ∧ (inPhase .meStart 3#64 5#64 7#64).pending = [] ∧
    modexpSteps 0 2 = 2 ∧ modexpSteps 10 1000 = 6 ∧ modexpSteps (2 ^ 64 - 1) 2 = 66 ∧ modexpSteps 3 0 = 1 := by decide

theorem witness_ModexpComputesPower :
    (inPhase .idle 3#64 5#64 7#64).phase = .idle ∧ (inPhase .idle 3#64 5#64 7#64).x2 ≠ 0#64 ∧
    ((inPhase .idle 3#64 5#64 7#64).withTurns [.host 0xB0000000000000002#68]).pending = [.host 0xB0000000000000002#68] :=
  ⟨rfl, by decide, rfl⟩

/-- CallIsPrimeAnswers: n = 7 with one engine turn before each of two polls. -/
theorem witness_CallIsPrimeAnswers :
    State.reset.phase = .idle ∧ isprimeSteps (7#64 : Word).toNat ≤ [1, 1].sum ∧
    (State.reset.withTurns (callIsPrime 7#64 [1, 1] ++ [])).pending = callIsPrime 7#64 [1, 1] ++ [] :=
  ⟨rfl, by norm_num [isprimeSteps], rfl⟩

/-- CallModExpAnswers: interleaving B of program P1, one engine turn before each of five polls. -/
theorem witness_CallModExpAnswers :
    State.reset.phase = .idle ∧ (7#64 : Word) ≠ 0#64 ∧
    modexpSteps (5#64 : Word).toNat (7#64 : Word).toNat ≤ [1, 1, 1, 1, 1].sum ∧
    (State.reset.withTurns (callModExp 3#64 5#64 7#64 [1, 1, 1, 1, 1] ++ [])).pending =
      callModExp 3#64 5#64 7#64 [1, 1, 1, 1, 1] ++ [] := ⟨rfl, by decide, by decide, rfl⟩

theorem witness_ReadsDisturbNothing :
    ∃ t, run 2 ((inTdLoop 9#64 3#64).withTurns [.host 0x40000000000000000#68, .engine]) = .next t := ⟨_, rfl⟩

theorem witness_HiddenRegistersNeverShow :
    (inPhase .meStart 3#64 5#64 7#64).phase ≠ .tdLoop ∧ (inPhase .meStart 3#64 5#64 7#64).phase ≠ .meLoop ∧
    ∃ t, run 2 (inPhase .meStart 3#64 5#64 7#64) = .next t := ⟨nofun, nofun, ⟨_, rfl⟩⟩

theorem witness_HostTurnCommutesWithEngineStep :
    (inTdLoop 11#64 3#64).busy = true ∧
    ∃ u, engineStep (inTdLoop 11#64 3#64) = .next u ∧ u.busy = true := ⟨rfl, ⟨_, rfl, rfl⟩⟩

/-- QuiescentUnitRests: with an engine turn, and with the schedule used up. -/
theorem witness_QuiescentUnitRests :
    State.reset.quiescent = true ∧ EngineNext State.reset State.reset ∧
    EngineNext (State.reset.withTurns [.engine]) State.reset :=
  ⟨rfl, engineNext_none rfl, .inr ⟨[], rfl, rfl⟩⟩

/-- RecommendedWrapperMap: an aligned base and eight bytes; then one access for each ground of refusal, the last two at a base
where no other ground holds. -/
theorem witness_RecommendedWrapperMap :
    (8 ∣ 0x1000 ∧ ([2#8, 0#8, 0#8, 0#8, 0#8, 0#8, 0#8, 0#8] : List (BitVec 8)).length = 8) ∧
    (⟨false, 0, 4, []⟩ : BusAccess).size ≠ 8 ∧ (⟨false, 4, 8, []⟩ : BusAccess).address % 8 ≠ 0 ∧
    (⟨false, 0, 8, []⟩ : BusAccess).address < 8 ∧ 0 + 64 ≤ (⟨false, 64, 8, []⟩ : BusAccess).address ∧
    ((⟨false, 8, 8, []⟩ : BusAccess).address - 4) % 8 ≠ 0 ∧
    ((⟨true, 8, 8, [2#8]⟩ : BusAccess).write = true ∧ (⟨true, 8, 8, [2#8]⟩ : BusAccess).bytes.length ≠ 8) := by decide

/-- EndedRunRests: an ended run in IDLE with an engine turn left, and one in FAULTED. -/
theorem witness_EndedRunRests :
    (State.reset.withTurns [.engine]).ended = true ∧ (inPhase .faulted 5#64 3#64 0#64).ended = true := by decide

end Sys2Proof.Tests
end

section
/-! SUPPORT. The transitions seen in PHASE, DONE, WDROP and CAUSE: what a host transaction and an engine step do to them. -/

namespace Sys2Proof.Machine

/-- Taking the engine's turn off the schedule touches the schedule alone. -/
theorem engineNext_withTurns {s u : State} (h : EngineNext s u) : ∃ ts, u = s.withTurns ts :=
  ⟨u.pending, engineNext_eq h⟩

/-- Taking a host turn off the schedule touches the schedule alone. -/
theorem hostNext_withTurns {s u : State} {w : TWord} (h : HostNext s w u) : ∃ ts, u = s.withTurns ts :=
  ⟨u.pending, hostNext_eq h⟩

@[simp] theorem complete_busy (v : Word) (s : State) : (complete v s).busy = false := rfl
@[simp] theorem raise_busy (f : UnitFault) (s : State) : (raise f s).busy = false := rfl
@[simp] theorem accept_busy (c : Command) (s : State) : (accept c s).busy = true := busy_startPhase c

/-- BUSY depends on PHASE alone (R27). -/
theorem busy_congr {s t : State} (h : t.phase = s.phase) : t.busy = s.busy := congrArg Phase.busy h

/-- A busy unit is in none of the two quiescent phases (R25). -/
theorem phase_of_busy {s : State} (h : s.busy = true) : s.phase ≠ .idle ∧ s.phase ≠ .faulted := by
  constructor <;> intro hp <;> simp [State.busy, hp] at h

theorem not_busy_of_idle {s : State} (h : s.phase = .idle) : s.busy = false := congrArg Phase.busy h

/-- All that a host transaction can do: a `MemWrite`, or the answer of a `MemRead` (R71). -/
theorem exec_decodeT_cases {w : TWord} {s t : State} (h : exec (decodeT w) s = .next t) :
    (∃ loc v, decodeT w = .wr loc v ∧ t = memWrite loc v s) ∨
    ∃ loc v, decodeT w = .rd loc v ∧ t = answer (memRead loc s) s := by
  cases hi : decodeT w with
  | isprime | modexp => simp only [decodeT] at hi; split at hi <;> cases hi
  | wr loc v => rw [hi, exec_wr] at h; cases h; exact .inl ⟨loc, v, rfl, rfl⟩
  | rd loc v => rw [hi, exec_rd] at h; cases h; exact .inr ⟨loc, v, rfl, rfl⟩

/-- The step of a host write is its `MemWrite`. -/
theorem step_host_wr {s t u : State} {w : TWord} {loc : Loc} {v : Word} (h : step s = .next t) (hu : HostNext s w u)
    (hw : decodeT w = .wr loc v) : t = memWrite loc v u := by
  rw [step_host hu, hw, exec_wr] at h
  cases h
  rfl

/-- A reset step leaves the reset state, but for the host side (R150). -/
theorem step_of_resetNext {s t : State} (h : step s = .next t) (hr : ResetNext s) :
    ∃ rest, t = { State.reset with pending := rest, answers := s.answers } := by
  obtain ⟨rest, hr⟩ := hr
  rw [step_reset hr] at h
  cases h
  exact ⟨rest, rfl⟩

/-- Acceptance and refusal of a command leave WDROP as it is (R32, R78). -/
theorem command_wdrop (v : Word) (s : State) : (command v s).wdrop = s.wdrop := by
  rcases command_cases v s with ⟨c, -, e⟩ | ⟨-, -, e⟩ <;> rw [e] <;> rfl

/-- Where a command write leads (R78). -/
theorem command_phase (v : Word) (s : State) :
    (command v s).phase = if v = isprimeWord then .tdStart else if v = modexpWord then .meStart else .faulted := by
  by_cases h1 : v = isprimeWord
  · rw [if_pos h1, h1, command_isprime]; rfl
  · by_cases h2 : v = modexpWord
    · rw [if_neg h1, if_pos h2, h2, command_modexp]; rfl
    · rw [if_neg h1, if_neg h2, command_illegal h1 h2]; rfl

/-- A write while IDLE to any index but CMD leaves PHASE, DONE and CAUSE as they are (R53, R55). -/
theorem writeIdle_keeps {loc : Loc} (v : Word) (s : State) (h : loc ≠ .cmd) :
    (writeIdle loc v s).phase = s.phase ∧ (writeIdle loc v s).done = s.done ∧ (writeIdle loc v s).cause = s.cause := by
  cases loc with
  | cmd => exact absurd rfl h
  | op0 | op1 | op2 | status | res | cause | reserved => exact ⟨rfl, rfl, rfl⟩

theorem memWrite_cmd_of_idle (v : Word) {s : State} (h : s.phase = .idle) : memWrite .cmd v s = command v s :=
  writeGate_idle h

/-- Every write but one to CMD while IDLE leaves PHASE, DONE and CAUSE as they are (R53, R55 to R57). -/
theorem memWrite_keeps {loc : Loc} (v : Word) {s : State} (h : s.phase ≠ .idle ∨ loc ≠ .cmd) :
    (memWrite loc v s).phase = s.phase ∧ (memWrite loc v s).done = s.done ∧ (memWrite loc v s).cause = s.cause := by
  rw [memWrite]
  rcases writeGate_cases (writeIdle loc v) s with ⟨-, e⟩ | ⟨-, e⟩ | ⟨idle, e⟩ <;> rw [e]
  · exact ⟨rfl, rfl, rfl⟩
  · exact ⟨rfl, rfl, rfl⟩
  · exact writeIdle_keeps v s (h.resolve_left fun ne => ne idle)

/-- All that a host transaction can do, seen in PHASE, DONE and CAUSE: a write to CMD while IDLE is a command, every other
transaction leaves the three as they are (R51, R52). -/
theorem exec_decodeT_control {w : TWord} {s t : State} (h : exec (decodeT w) s = .next t) :
    (∃ v, s.phase = .idle ∧ decodeT w = .wr .cmd v ∧ t = command v s) ∨
    (t.phase = s.phase ∧ t.done = s.done ∧ t.cause = s.cause) := by
  rcases exec_decodeT_cases h with ⟨loc, v, hw, rfl⟩ | ⟨loc, v, -, rfl⟩
  · by_cases hc : s.phase = .idle ∧ loc = .cmd
    · obtain ⟨idle, rfl⟩ := hc
      exact .inl ⟨v, idle, hw, memWrite_cmd_of_idle v idle⟩
    · exact .inr (memWrite_keeps v (not_and_or.1 hc))
  · exact .inr ⟨rfl, rfl, rfl⟩

/-- A write sets WDROP while BUSY and keeps it otherwise (R32, R56, R57). -/
theorem memWrite_wdrop (loc : Loc) (v : Word) (s : State) : (memWrite loc v s).wdrop = (s.busy || s.wdrop) := by
  rcases phase_cases s.phase with h | h | h
  · rw [memWrite, writeGate_idle h, not_busy_of_idle h, Bool.false_or]
    cases loc with
    | cmd => exact command_wdrop v s
    | op0 | op1 | op2 | status | res | cause | reserved => rfl
  · rw [memWrite, writeGate_faulted h, State.busy, h]; rfl
  · have hb : s.busy = true := h
    rw [memWrite, writeGate_busy hb, hb]; rfl

/-- All that an engine step can do, seen in PHASE, DONE and CAUSE: nothing while the unit is quiescent; a completion; the
fault entry of MODEXP; or the operation goes on (R39). -/
theorem engineStep_control {s t : State} (h : engineStep s = .next t) :
    (s.busy = false ∧ t = s) ∨
    (s.busy = true ∧ ∃ v, t = complete v s) ∨
    (s.busy = true ∧ s.phase = .meStart ∧ t = raise .modZero s) ∨
    (s.busy = true ∧ t.busy = true ∧ t.done = s.done ∧ t.cause = s.cause) := by
  rcases engineStep_cases h with ⟨hb, e⟩ | ⟨hp, -, e⟩ | ⟨hp, -, e⟩ | ⟨hp, -, -, e⟩ | ⟨hp, -, -, rfl⟩ | ⟨hp, -, e⟩ |
    ⟨hp, -, -, e⟩ | ⟨hp, -, -, rfl⟩ | ⟨hp, -, e⟩ | ⟨hp, -, e⟩ | ⟨hp, -, _, -, rfl⟩ | ⟨hp, -, e⟩ |
    ⟨hp, -, -, _, _, -, -, rfl⟩
  · exact .inl ⟨hb, e⟩
  · exact .inr (.inl ⟨congrArg Phase.busy hp, _, e⟩)
  · exact .inr (.inl ⟨congrArg Phase.busy hp, _, e⟩)
  · exact .inr (.inl ⟨congrArg Phase.busy hp, _, e⟩)
  · exact .inr (.inr (.inr ⟨congrArg Phase.busy hp, rfl, rfl, rfl⟩))
  · exact .inr (.inl ⟨congrArg Phase.busy hp, _, e⟩)
  · exact .inr (.inl ⟨congrArg Phase.busy hp, _, e⟩)
  · exact .inr (.inr (.inr ⟨congrArg Phase.busy hp, congrArg Phase.busy hp, rfl, rfl⟩))
  · exact .inr (.inr (.inl ⟨congrArg Phase.busy hp, hp, e⟩))
  · exact .inr (.inl ⟨congrArg Phase.busy hp, _, e⟩)
  · exact .inr (.inr (.inr ⟨congrArg Phase.busy hp, rfl, rfl, rfl⟩))
  · exact .inr (.inl ⟨congrArg Phase.busy hp, _, e⟩)
  · exact .inr (.inr (.inr ⟨congrArg Phase.busy hp, congrArg Phase.busy hp, rfl, rfl⟩))

end Sys2Proof.Machine
end

section
/-! PROOFS. The invariant of R38: what it gives in each phase, that every step keeps it, and that under it every step
answers; so every run from reset does both. -/

namespace Sys2Proof.Machine

/-- The schedule plays no part in the invariant. -/
theorem inv_withTurns (s : State) (ts : List Turn) : (s.withTurns ts).Inv ↔ s.Inv := Iff.rfl

theorem cause_eq_zero_of_inv {s : State} (h : s.Inv) (hp : s.phase ≠ .faulted) : s.cause = 0#2 := by
  obtain ⟨-, -, hcause, -⟩ := h
  exact not_not.1 fun ne => hp (hcause.1 ne)

theorem done_eq_false_of_inv {s : State} (h : s.Inv) (hb : s.busy = true) : s.done = false := by
  obtain ⟨-, hdone, -⟩ := h
  obtain ⟨notIdle, notFaulted⟩ := phase_of_busy hb
  exact Bool.eq_false_iff.2 fun d => (hdone d).elim notIdle notFaulted

theorem inv_of_idle {s : State} (hp : s.phase = .idle) (hc : s.cause = 0#2) : s.Inv := by
  simp [State.Inv, State.busy, hp, hc]

theorem inv_of_faulted {s : State} (hp : s.phase = .faulted) (hc : s.cause ≠ 0#2) (hd : s.cause = 1#2 → s.done = false) :
    s.Inv := by
  refine ⟨?_, fun _ => .inr hp, ⟨fun _ => hp, fun _ => hc⟩, hd, ?_, ?_⟩ <;> simp [State.busy, hp]

/-- What is left to show in a busy phase: CAUSE and DONE are 0, and the loop's own clause of R38 (e). -/
theorem inv_of_busy {s : State} (hb : s.busy = true) (hc : s.cause = 0#2) (hd : s.done = false)
    (htd : s.phase = .tdLoop →
      s.x0.toNat % 2 = 1 ∧ 3 ≤ s.x0.toNat ∧ s.i.toNat % 2 = 1 ∧ 3 ≤ s.i.toNat ∧ s.i.toNat ≤ 2 ^ 32 + 1)
    (hme : s.phase = .meLoop → 2 ≤ s.x2.toNat ∧ s.acc.toNat < s.x2.toNat ∧ s.sq.toNat < s.x2.toNat) : s.Inv := by
  obtain ⟨-, notFaulted⟩ := phase_of_busy hb
  refine ⟨?_, by simp [hd], by simp [hc, notFaulted], fun _ => hd, htd, hme⟩
  rintro ⟨-, hf⟩
  exact notFaulted ((fault_eq_true_iff _).1 hf)

/-- The invariant outside the loops is about PHASE, DONE and CAUSE alone; a step that keeps the three keeps it there. -/
theorem inv_of_not_busy_congr {s t : State} (h : s.Inv) (hb : s.busy = false) (hp : t.phase = s.phase)
    (hd : t.done = s.done) (hc : t.cause = s.cause) : t.Inv := by
  rcases phase_cases s.phase with idle | faulted | busy
  · exact inv_of_idle (hp.trans idle) (hc.trans (cause_eq_zero_of_inv h (by simp [idle])))
  · obtain ⟨-, -, hcause, hzero, -⟩ := h
    exact inv_of_faulted (hp.trans faulted) (hc ▸ hcause.2 faulted) (by rw [hc, hd]; exact hzero)
  · exact absurd (hb.symm.trans busy) (by decide)

/-- A completion keeps the invariant (R29). -/
theorem inv_complete {s : State} (h : s.Inv) (hb : s.busy = true) (v : Word) : (complete v s).Inv := by
  have hc := cause_eq_zero_of_inv h (phase_of_busy hb).2
  exact inv_of_idle rfl hc

/-- An acceptance keeps the invariant (R78). -/
theorem inv_accept {s : State} (h : s.Inv) (hp : s.phase = .idle) (c : Command) : (accept c s).Inv := by
  have hc := cause_eq_zero_of_inv h (by simp [hp])
  cases c <;> exact inv_of_busy rfl hc rfl nofun nofun

/-- A command write while IDLE keeps the invariant (R78). -/
theorem inv_command {s : State} (h : s.Inv) (hp : s.phase = .idle) (v : Word) : (command v s).Inv := by
  rcases command_cases v s with ⟨c, -, e⟩ | ⟨-, -, e⟩ <;> rw [e]
  · exact inv_accept h hp c
  · exact inv_of_faulted rfl (by simp [UnitFault.code]) (by simp [UnitFault.code])

/-- A host transaction keeps the invariant: while BUSY it reaches no element that the invariant speaks of. -/
theorem inv_host {w : TWord} {s t : State} (h : s.Inv) (he : exec (decodeT w) s = .next t) : t.Inv := by
  cases hb : s.busy with
  | false =>
    rcases exec_decodeT_control he with ⟨v, idle, -, rfl⟩ | ⟨hp, hd, hc⟩
    · exact inv_command h idle v
    · exact inv_of_not_busy_congr h hb hp hd hc
  | true =>
    rcases exec_decodeT_cases he with ⟨loc, v, -, rfl⟩ | ⟨loc, v, -, rfl⟩
    · rw [memWrite, writeGate_busy hb]; exact h
    · exact h

/-- Setting up the trial division makes its clause of R38 (R92). -/
theorem inv_enter_tdLoop {s : State} (h : s.Inv) (hp : s.phase = .tdStart) (h3 : 3 ≤ s.x0.toNat)
    (hodd : s.x0.toNat % 2 = 1) : State.Inv { s with i := 3#64, phase := .tdLoop } := by
  have hc := cause_eq_zero_of_inv h (by simp [hp])
  have hd := done_eq_false_of_inv h (congrArg Phase.busy hp)
  exact inv_of_busy rfl hc hd (fun _ => ⟨hodd, h3, by simp⟩) nofun

/-- The next divisor is odd and within the bound of R38, since the current one lies below 2^32 (R96). -/
theorem inv_nextDivisor {s : State} (h : s.Inv) (hp : s.phase = .tdLoop) (hle : s.i.toNat * s.i.toNat ≤ s.x0.toNat) :
    State.Inv { s with i := nextDivisor s.i } := by
  obtain ⟨hexcl, hdone, hcause, hcode, htd, -⟩ := h
  obtain ⟨nOdd, n3, iOdd, i3, -⟩ := htd hp
  have below : s.i.toNat < 2 ^ 32 := divisor_lt_of_square_le s.x0.isLt hle
  have next : (nextDivisor s.i).toNat = s.i.toNat + 2 := nextDivisor_toNat _ (by omega)
  refine ⟨hexcl, hdone, hcause, hcode, fun _ => ⟨nOdd, n3, ?_⟩, fun hme => by simp [hp] at hme⟩
  simp only [next]
  omega

/-- Setting up the power loop makes its clause of R38 (R112). -/
theorem inv_enter_meLoop {s : State} {sq' : Word} (h : s.Inv) (hp : s.phase = .meStart) (h2 : 2 ≤ s.x2.toNat)
    (hsq : sq'.toNat = s.x0.toNat % s.x2.toNat) :
    State.Inv { s with acc := 1#64, sq := sq', e := s.x1, phase := .meLoop } := by
  have hc := cause_eq_zero_of_inv h (by simp [hp])
  have hd := done_eq_false_of_inv h (congrArg Phase.busy hp)
  exact inv_of_busy rfl hc hd nofun fun _ => ⟨h2, h2, hsq ▸ Nat.mod_lt _ (by omega)⟩

/-- A step of the power loop leaves ACC and SQ reduced (R113). -/
theorem inv_meLoop_step {s : State} {acc' sq' : Word} (h : s.Inv) (hp : s.phase = .meLoop)
    (hacc : acc'.toNat = if s.e.toNat % 2 = 1 then (s.acc.toNat * s.sq.toNat) % s.x2.toNat else s.acc.toNat)
    (hsq : sq'.toNat = (s.sq.toNat * s.sq.toNat) % s.x2.toNat) :
    State.Inv { s with acc := acc', sq := sq', e := shiftRight1 s.e } := by
  obtain ⟨hexcl, hdone, hcause, hcode, -, hme⟩ := h
  obtain ⟨m2, accLt, -⟩ := hme hp
  have pos : 0 < s.x2.toNat := by omega
  refine ⟨hexcl, hdone, hcause, hcode, fun htd => by simp [hp] at htd, fun _ => ⟨m2, ?_, hsq ▸ Nat.mod_lt _ pos⟩⟩
  show acc'.toNat < s.x2.toNat
  rw [hacc]
  split
  · exact Nat.mod_lt _ pos
  · exact accLt

/-- The fault entry of MODEXP keeps the invariant: DONE was cleared at the acceptance (R38 (d), R131). -/
theorem inv_raise_modZero {s : State} (h : s.Inv) (hb : s.busy = true) : (raise .modZero s).Inv := by
  have hd := done_eq_false_of_inv h hb
  exact inv_of_faulted rfl (by simp [UnitFault.code]) fun _ => hd

/-- An engine step keeps the invariant. -/
theorem inv_engineStep {s t : State} (h : s.Inv) (he : engineStep s = .next t) : t.Inv := by
  rcases engineStep_cases he with ⟨-, rfl⟩ | ⟨hp, -, rfl⟩ | ⟨hp, -, rfl⟩ | ⟨hp, -, -, rfl⟩ | ⟨hp, h3, hodd, rfl⟩ |
    ⟨hp, -, rfl⟩ | ⟨hp, -, -, rfl⟩ | ⟨hp, hle, -, rfl⟩ | ⟨hp, -, rfl⟩ | ⟨hp, -, rfl⟩ | ⟨hp, h2, sq', hsq, rfl⟩ |
    ⟨hp, -, rfl⟩ | ⟨hp, -, -, acc', sq', hacc, hsq, rfl⟩
  · exact h
  · exact inv_complete h (congrArg Phase.busy hp) _
  · exact inv_complete h (congrArg Phase.busy hp) _
  · exact inv_complete h (congrArg Phase.busy hp) _
  · exact inv_enter_tdLoop h hp h3 hodd
  · exact inv_complete h (congrArg Phase.busy hp) _
  · exact inv_complete h (congrArg Phase.busy hp) _
  · exact inv_nextDivisor h hp hle
  · exact inv_raise_modZero h (congrArg Phase.busy hp)
  · exact inv_complete h (congrArg Phase.busy hp) _
  · exact inv_enter_meLoop h hp h2 hsq
  · exact inv_complete h (congrArg Phase.busy hp) _
  · exact inv_meLoop_step h hp hacc hsq

/-- Every step keeps the invariant of R38. -/
theorem inv_step {s t : State} (h : s.Inv) (hs : step s = .next t) : t.Inv := by
  rcases step_cases hs with ⟨u, hu, he⟩ | ⟨w, u, hu, he⟩ | ⟨rest, -, rfl⟩
  · obtain ⟨ts, rfl⟩ := engineNext_withTurns hu
    exact inv_engineStep ((inv_withTurns s ts).2 h) he
  · obtain ⟨ts, rfl⟩ := hostNext_withTurns hu
    exact inv_host ((inv_withTurns s ts).2 h) he
  · exact inv_of_idle rfl rfl

/-- Under the invariant the engine never evaluates a remainder by 0 (R8). -/
theorem engineStep_answers {s : State} (h : s.Inv) : ∃ t, engineStep s = .next t := by
  obtain ⟨-, -, -, -, htd, hme⟩ := h
  cases hp : s.phase with
  | idle | faulted => exact ⟨s, by rw [engineStep, hp]⟩
  | tdStart =>
    rw [engineStep, hp]
    rcases stepTdStart_cases s with ⟨-, e⟩ | ⟨-, e⟩ | ⟨-, -, e⟩ | ⟨-, -, e⟩ <;> exact ⟨_, e⟩
  | tdLoop =>
    obtain ⟨-, -, -, i3, -⟩ := htd hp
    rw [engineStep, hp]
    rcases stepTdLoop_cases s (by omega) with ⟨-, e⟩ | ⟨-, -, e⟩ | ⟨-, -, e⟩ <;> exact ⟨_, e⟩
  | meStart =>
    rw [engineStep, hp]
    rcases stepMeStart_cases s with ⟨-, e⟩ | ⟨-, e⟩ | ⟨-, -, e⟩ <;> exact ⟨_, e⟩
  | meLoop =>
    obtain ⟨m2, -, -⟩ := hme hp
    rw [engineStep, hp]
    rcases stepMeLoop_cases s (by omega) with ⟨-, e⟩ | ⟨-, _, _, -, -, e⟩ <;> exact ⟨_, e⟩

/-- Under the invariant every step answers. -/
theorem step_answers {s : State} (h : s.Inv) : ∃ t, step s = .next t := by
  rcases next_turn_cases s with ⟨u, hu⟩ | ⟨w, u, hu⟩ | ⟨rest, hr⟩
  · obtain ⟨ts, rfl⟩ := engineNext_withTurns hu
    rw [step_engine hu]
    exact engineStep_answers ((inv_withTurns s ts).2 h)
  · rw [step_host hu]
    exact exec_answers _ u
  · exact ⟨_, step_reset hr⟩

/-- Where a predicate lets every step answer and is kept by it, every run answers and keeps it. -/
theorem run_answers {P : State → Prop} (answers : ∀ s, P s → ∃ t, step s = .next t)
    (keeps : ∀ s t, P s → step s = .next t → P t) (k : Nat) {s : State} (hs : P s) :
    ∃ t, run k s = .next t ∧ P t := by
  induction k generalizing s with
  | zero => exact ⟨s, run_zero s, hs⟩
  | succ k ih =>
    obtain ⟨u, hu⟩ := answers s hs
    obtain ⟨t, ht, hP⟩ := ih (keeps s u hs hu)
    exact ⟨t, (run_succ k hu).trans ht, hP⟩

/-- Settles O42: reset meets the invariant of R38, and under it every step answers and keeps it. -/
theorem reachableStatesSatisfyInvariant : Obligations.ReachableStatesSatisfyInvariant := by
  intro ts k
  have reset : (State.reset.withTurns ts).Inv := inv_of_idle rfl rfl
  exact run_answers (P := State.Inv) (fun _ => step_answers) (fun _ _ => inv_step) k reset

end Sys2Proof.Machine
end

section
/-! PROOFS. The status bits: what changes WDROP (R32) and DONE (R28), the table of PHASE (R39), the layout of STATUS (R26)
and the values after reset (R37). -/

namespace Sys2Proof.Machine

/-- Settles O26: `MemWrite` is the only operation that touches WDROP, and it sets it exactly while BUSY. -/
theorem wdropSticky : Obligations.WdropSticky := by
  intro s t h
  refine ⟨fun hr => ?reset, fun w u loc v hu hb hw => ?busy, fun hr hother => ?other⟩
  case reset =>
    obtain ⟨rest, rfl⟩ := step_of_resetNext h hr
    rfl
  case busy =>
    obtain ⟨ts, rfl⟩ := hostNext_withTurns hu
    rw [step_host_wr h hu hw]
    exact writeGate_busy hb
  case other =>
    rcases step_cases h with ⟨u, hu, he⟩ | ⟨w, u, hu, he⟩ | ⟨rest, hrest, -⟩
    · obtain ⟨ts, rfl⟩ := engineNext_withTurns hu
      obtain ⟨-, -, -, hw, -⟩ := engineStep_keeps he
      exact hw
    · obtain ⟨ts, rfl⟩ := hostNext_withTurns hu
      rcases exec_decodeT_cases he with ⟨loc, v, hw, rfl⟩ | ⟨loc, v, -, rfl⟩
      · have notBusy : (s.withTurns ts).busy = false := Bool.eq_false_iff.2 fun hb => hother w _ loc v hu hb hw
        rw [memWrite_wdrop, notBusy]
        rfl
      · rfl
    · exact absurd ⟨rest, hrest⟩ hr

/-- DONE after a transition from `s` to `t` that is not reset, by R28: 0 after an acceptance (IDLE to a busy phase), 1
after a completion (a busy phase to IDLE), else as before. -/
def doneAfter (s t : State) : Bool :=
  if s.phase = .idle ∧ t.busy = true then false
  else if s.busy = true ∧ t.phase = .idle then true
  else s.done

/-- A transition that leaves PHASE neither accepts nor completes. -/
theorem doneAfter_of_phase_eq {s t : State} (h : t.phase = s.phase) : doneAfter s t = s.done := by
  rw [doneAfter, busy_congr h, h, if_neg, if_neg]
  · exact fun ⟨hb, hi⟩ => (phase_of_busy hb).1 hi
  · exact fun ⟨hi, hb⟩ => (phase_of_busy hb).1 hi

theorem engineStep_done {s t : State} (h : engineStep s = .next t) : t.done = doneAfter s t := by
  rcases engineStep_control h with ⟨-, rfl⟩ | ⟨hb, v, rfl⟩ | ⟨-, -, rfl⟩ | ⟨hb, hb', hd, -⟩
  · exact (doneAfter_of_phase_eq rfl).symm
  · simp [doneAfter, hb]
  · simp [doneAfter]
  · simp [doneAfter, hd, (phase_of_busy hb).1, (phase_of_busy hb').1]

theorem host_done {w : TWord} {s t : State} (h : exec (decodeT w) s = .next t) : t.done = doneAfter s t := by
  rcases exec_decodeT_control h with ⟨v, idle, -, rfl⟩ | ⟨hp, hd, -⟩
  · rcases command_cases v s with ⟨c, -, e⟩ | ⟨-, -, e⟩ <;> rw [e]
    · simp [doneAfter, idle]
    · simp [doneAfter]
  · rw [hd, doneAfter_of_phase_eq hp]

/-- Every transition but reset treats DONE as R28 says. -/
theorem step_done {s t : State} (h : step s = .next t) (hr : ¬ ResetNext s) : t.done = doneAfter s t := by
  rcases step_cases h with ⟨u, hu, he⟩ | ⟨w, u, hu, he⟩ | ⟨rest, hrest, -⟩
  · obtain ⟨ts, rfl⟩ := engineNext_withTurns hu
    exact engineStep_done (s := s.withTurns ts) he
  · obtain ⟨ts, rfl⟩ := hostNext_withTurns hu
    exact host_done (s := s.withTurns ts) he
  · exact absurd ⟨rest, hrest⟩ hr

/-- Settles O27: the cases of `doneAfter`, and reset. -/
theorem doneLifetime : Obligations.DoneLifetime := by
  intro s t h
  refine ⟨fun hr => ?reset, fun hr idle busy => ?accepted, fun hr busy idle => ?completed, fun hr hacc hcomp => ?kept⟩
  case reset =>
    obtain ⟨rest, rfl⟩ := step_of_resetNext h hr
    rfl
  all_goals rw [step_done h hr, doneAfter]
  case accepted => rw [if_pos ⟨idle, busy⟩]
  case completed =>
    have notAccepted : ¬ (s.phase = .idle ∧ t.busy = true) := fun ⟨hi, _⟩ => (phase_of_busy busy).1 hi
    rw [if_neg notAccepted, if_pos ⟨busy, idle⟩]
  case kept => rw [if_neg hacc, if_neg hcomp]

/-- In IDLE and FAULTED the engine has no step (R13). -/
theorem engineStep_phase_of_not_busy {s t : State} (h : engineStep s = .next t) (hb : s.busy = false) :
    t.phase = s.phase := by
  rcases engineStep_control h with ⟨-, rfl⟩ | ⟨hb', -⟩ | ⟨hb', -⟩ | ⟨hb', -⟩
  · rfl
  all_goals exact absurd hb' (Bool.eq_false_iff.1 hb)

/-- The row of R39 for TD_START. -/
theorem engineStep_phase_of_tdStart {s t : State} (h : engineStep s = .next t) (hp : s.phase = .tdStart) :
    t.phase = if s.x0.toNat < 2 ∨ s.x0.toNat = 2 ∨ s.x0.toNat % 2 = 0 then .idle else .tdLoop := by
  rw [engineStep, hp] at h
  rcases stepTdStart_cases s with ⟨hn, e⟩ | ⟨hn, e⟩ | ⟨-, hn, e⟩ | ⟨h3, hn, e⟩ <;> cases e.symm.trans h
  · rw [if_pos (.inl hn)]; rfl
  · rw [if_pos (.inr (.inl hn))]; rfl
  · rw [if_pos (.inr (.inr hn))]; rfl
  · rw [if_neg (by omega)]

/-- The row of R39 for TD_LOOP. -/
theorem engineStep_phase_of_tdLoop {s t : State} (h : engineStep s = .next t) (hp : s.phase = .tdLoop) :
    t.phase = if s.x0.toNat < s.i.toNat * s.i.toNat then .idle
      else if s.x0.toNat % s.i.toNat = 0 then .idle else .tdLoop := by
  rw [engineStep, hp] at h
  rcases stepTdLoop_cases s (stepTdLoop_next_ne h) with ⟨hn, e⟩ | ⟨hle, hdvd, e⟩ | ⟨hle, hdvd, e⟩ <;>
    cases e.symm.trans h
  · rw [if_pos hn]; rfl
  · rw [if_neg (Nat.not_lt.2 hle), if_pos (Nat.mod_eq_zero_of_dvd hdvd)]; rfl
  · rw [if_neg (Nat.not_lt.2 hle), if_neg fun hm => hdvd (Nat.dvd_of_mod_eq_zero hm)]; exact hp

/-- The row of R39 for ME_START. -/
theorem engineStep_phase_of_meStart {s t : State} (h : engineStep s = .next t) (hp : s.phase = .meStart) :
    t.phase = if s.x2.toNat = 0 then .faulted else if s.x2.toNat = 1 then .idle else .meLoop := by
  rw [engineStep, hp] at h
  rcases stepMeStart_cases s with ⟨hm, e⟩ | ⟨hm, e⟩ | ⟨hm, -, e⟩ <;> cases e.symm.trans h
  · rw [if_pos hm]; rfl
  · rw [if_neg (by omega), if_pos hm]; rfl
  · rw [if_neg (by omega), if_neg (by omega)]

/-- The row of R39 for ME_LOOP. -/
theorem engineStep_phase_of_meLoop {s t : State} (h : engineStep s = .next t) (hp : s.phase = .meLoop) :
    t.phase = if s.e.toNat = 0 then .idle else .meLoop := by
  rw [engineStep, hp] at h
  by_cases zero : s.x2.toNat = 0
  · rcases stepMeLoop_zero s zero with ⟨he, e⟩ | ⟨-, e⟩ <;> cases e.symm.trans h
    rw [if_pos he]; rfl
  · rcases stepMeLoop_cases s zero with ⟨he, e⟩ | ⟨he, _, _, -, -, e⟩ <;> cases e.symm.trans h
    · rw [if_pos he]; rfl
    · rw [if_neg he]; exact hp

/-- Settles O28: reset; a command; every other host transaction, which keeps PHASE; and the engine's rows, phase by
phase. -/
theorem phaseTransitionTable : Obligations.PhaseTransitionTable := by
  intro s t h
  refine ⟨fun hr => ?reset, fun w u v hu idle hw => ?command, fun w u hu hother => ?host, fun u hu => ?engine⟩
  case reset =>
    obtain ⟨rest, rfl⟩ := step_of_resetNext h hr
    rfl
  case command =>
    obtain ⟨ts, rfl⟩ := hostNext_withTurns hu
    have ht : t = command v (s.withTurns ts) := (step_host_wr h hu hw).trans (memWrite_cmd_of_idle v idle)
    rw [ht]
    exact command_phase v _
  case host =>
    have he := (step_host hu).symm.trans h
    obtain ⟨ts, rfl⟩ := hostNext_withTurns hu
    rcases exec_decodeT_control he with ⟨v, idle, hw, -⟩ | ⟨hp, -, -⟩
    · exact hother.elim (absurd idle) (fun ne => absurd hw (ne v))
    · exact hp
  case engine =>
    have he := (step_engine hu).symm.trans h
    obtain ⟨ts, rfl⟩ := engineNext_withTurns hu
    cases hp : s.phase
    case idle | faulted => exact (engineStep_phase_of_not_busy he (congrArg Phase.busy hp)).trans hp
    case tdStart => exact (engineStep_phase_of_tdStart he hp :)
    case tdLoop => exact (engineStep_phase_of_tdLoop he hp :)
    case meStart => exact (engineStep_phase_of_meStart he hp :)
    case meLoop => exact (engineStep_phase_of_meLoop he hp :)

/-- BUSY as R25 lists it. -/
theorem busy_eq_decide (s : State) :
    s.busy = decide (s.phase = .tdStart ∨ s.phase = .tdLoop ∨ s.phase = .meStart ∨ s.phase = .meLoop) := by
  rw [State.busy]
  cases s.phase <;> rfl

theorem faultBit_eq_decide (s : State) : s.faultBit = decide (s.phase = .faulted) := by
  rw [State.faultBit]
  cases s.phase <;> rfl

/-- The bits of STATUS from bit 0 up: BUSY, DONE, FAULT, WDROP, then zeros (R26). -/
theorem statusWord_getLsbD (s : State) (k : Nat) :
    (statusWord s).getLsbD k = ([s.busy, s.done, s.faultBit, s.wdrop][k]?).getD false := by
  simp only [statusWord, BitVec.getLsbD_append]
  match k with
  | 0 | 1 | 2 | 3 | k + 4 => simp

/-- Settles O24: the word bit by bit; the other clauses are what a read and a dropped write do. -/
theorem statusWordLayout : Obligations.StatusWordLayout := by
  refine ⟨fun s d => exec_rd .status d s, fun _ => rfl, fun s k => ?bits, fun s v idle => ?dropped, rfl⟩
  case bits =>
    refine (statusWord_getLsbD s k).trans ?_
    match k with
    | 0 => exact busy_eq_decide s
    | 2 => exact faultBit_eq_decide s
    | 1 | 3 | k + 4 => rfl
  case dropped =>
    rw [exec_wr, memWrite, writeGate_idle idle]
    rfl

/-- Settles O33: the elements as R37 lists them, and each index in turn. -/
theorem resetValues : Obligations.ResetValues := by
  refine ⟨rfl, rfl, rfl, rfl, rfl, rfl, rfl, rfl, rfl, rfl, rfl, rfl, fun loc => ?_⟩
  cases loc <;> rfl

end Sys2Proof.Machine
end

section
/-! PROOFS. The register space (20_memory.md): what a read answers at each index (R51), and what a write does in each
PHASE (R52 to R57). -/

namespace Sys2Proof.Machine

/-- An answer is no element of the unit, so the next read does not see it (R51). -/
@[simp] theorem memRead_answer (loc : Loc) (v : Word) (s : State) : memRead loc (answer v s) = memRead loc s := by
  cases loc <;> rfl

/-- While IDLE a write takes its effect (R53 to R55). -/
theorem exec_wr_of_idle (loc : Loc) (v : Word) {s : State} (h : s.phase = .idle) :
    exec (.wr loc v) s = .next (writeIdle loc v s) := by
  rw [exec_wr, memWrite, writeGate_idle h]

/-- Settles O11: each index in turn is `MemRead` there; a second read finds the same, as an answer is
no element of the unit. -/
theorem readAnswersByIndex : Obligations.ReadAnswersByIndex := by
  intro s d
  refine ⟨exec_rd .op0 d s, exec_rd .op1 d s, exec_rd .op2 d s, exec_rd .cmd d s, exec_rd .status d s, exec_rd .res d s,
    exec_rd .cause d s, exec_rd .reserved d s, fun loc => ⟨memRead loc s, answer (memRead loc s) s, ?_, ?_, ?_⟩⟩
  · exact exec_rd loc d s
  · exact answer_answers _ s
  · rw [exec_rd, memRead_answer]

/-- Settles O12: the gate is open while IDLE, and the effect of the write is its register's assignment. -/
theorem operandWriteWhenIdle : Obligations.OperandWriteWhenIdle := fun _ v idle =>
  ⟨exec_wr_of_idle .op0 v idle, exec_wr_of_idle .op1 v idle, exec_wr_of_idle .op2 v idle⟩

/-- Settles O13: the gate is open while IDLE, and the write has no effect at these four indices. -/
theorem readOnlyWriteDroppedWhenIdle : Obligations.ReadOnlyWriteDroppedWhenIdle := fun _ v idle =>
  ⟨exec_wr_of_idle .status v idle, exec_wr_of_idle .res v idle, exec_wr_of_idle .cause v idle,
    exec_wr_of_idle .reserved v idle⟩

/-- Settles O14: a write and the two issues pass one gate, which while BUSY sets WDROP and lets nothing through. -/
theorem writeWhileBusyOnlySetsWdrop : Obligations.WriteWhileBusyOnlySetsWdrop := by
  intro s loc v busy
  refine ⟨?_, ?_, ?_⟩
  · rw [exec_wr, memWrite, writeGate_busy busy]
  · rw [exec_isprime, issue, writeGate_busy busy]
  · rw [exec_modexp, issue, writeGate_busy busy]

/-- Settles O15: the same gate is shut while FAULTED and sets nothing. -/
theorem writeWhileFaultedDropped : Obligations.WriteWhileFaultedDropped := by
  intro s loc v faulted
  refine ⟨?_, ?_, ?_⟩
  · rw [exec_wr, memWrite, writeGate_faulted faulted]
  · rw [exec_isprime, issue, writeGate_faulted faulted]
  · rw [exec_modexp, issue, writeGate_faulted faulted]

end Sys2Proof.Machine
end

section
/-! PROOFS. The encodings (30_encoding.md): the command words (R73, R75) and the fields of a transaction word (R71). -/

namespace Sys2Proof.Machine

theorem modexpWord_ne_isprimeWord : modexpWord ≠ isprimeWord := by decide

/-- Exactly one word spells ISPRIME (R73). -/
theorem decodeC_eq_isprime_iff (w : Word) : decodeC w = .ok .isprime ↔ w = isprimeWord := by
  rw [decodeC_eq]
  split
  · simp [*]
  · split <;> simp [*, modexpWord_ne_isprimeWord]

/-- Exactly one word spells MODEXP (R73). -/
theorem decodeC_eq_modexp_iff (w : Word) : decodeC w = .ok .modexp ↔ w = modexpWord := by
  rw [decodeC_eq]
  split
  · simp [*, modexpWord_ne_isprimeWord.symm]
  · split <;> simp [*]

/-- Settles O1: one word spells each command, and the mask of all ones leaves a word as it is. -/
theorem commandWordsDecodeByMatchAndMask : Obligations.CommandWordsDecodeByMatchAndMask := by
  intro w
  have masked (m : Word) : w &&& commandMask = m ↔ w = m := by rw [and_commandMask]
  exact ⟨(decodeC_eq_isprime_iff w).trans (masked _).symm, (decodeC_eq_modexp_iff w).trans (masked _).symm,
    decodeC_eq_isprime_iff w, decodeC_eq_modexp_iff w⟩

/-- Settles O2: the decoder rejects the word, and while IDLE the command write is the fault entry. -/
theorem everyOtherCommandWordIsIllegal : Obligations.EveryOtherCommandWordIsIllegal := by
  intro w h1 h2
  refine ⟨decodeC_illegal h1 h2, fun s idle => ?_⟩
  rw [exec_wr, memWrite_cmd_of_idle w idle, command_illegal h1 h2]
  rfl

/-- Bit 67 as a quotient of the word's number (R71). -/
theorem tWe_iff (w : TWord) : tWe w = true ↔ w.toNat / 2 ^ 67 = 1 := by
  have := w.isLt
  rw [tWe, BitVec.getLsbD, Nat.testBit_eq_decide_div_mod_eq, decide_eq_true_eq]
  omega

/-- Bits 66:64 as a quotient and remainder of the word's number (R71). -/
theorem tIdx_toNat (w : TWord) : (tIdx w).toNat = w.toNat / 2 ^ 64 % 8 := by
  rw [tIdx, BitVec.extractLsb'_toNat, Nat.shiftRight_eq_div_pow]

/-- Bits 63:0 as a remainder of the word's number (R71). -/
theorem tData_eq (w : TWord) : tData w = BitVec.ofNat 64 (w.toNat % 2 ^ 64) := by
  rw [tData, BitVec.extractLsb', Nat.shiftRight_zero]
  exact BitVec.eq_of_toNat_eq (by simp)

/-- The eight locations stand in the order of their indices (R50). -/
theorem ofIndex_eq_getElem : ∀ b : Index, Loc.ofIndex b =
    ([Loc.op0, .op1, .op2, .cmd, .status, .res, .cause, .reserved][b.toNat]?).getD .reserved := by decide

/-- Settles O4: the fields one by one; the meanings of `wr` and `rd` are `MemWrite` and the answer of `MemRead`. -/
theorem transactionWordFields : Obligations.TransactionWordFields := by
  refine ⟨fun w => congrArg Except.ok ?_, fun loc data s => ⟨exec_wr loc data s, exec_rd loc data s⟩⟩
  rw [decodeT, ofIndex_eq_getElem, tIdx_toNat, tData_eq]
  simp only [tWe_iff]

/-- A T word decodes to the transaction of its three fields (R71). -/
theorem decodeT_tWord (we : Bool) (loc : Loc) (data : Word) :
    decodeT (tWord we loc data) = if we then .wr loc data else .rd loc data := by
  have hwe : tWe (tWord we loc data) = we := by
    simp only [tWe, tWord, BitVec.getLsbD_append]
    cases we <;> rfl
  have hidx : tIdx (tWord we loc data) = loc.index := by
    rw [tIdx, tWord, BitVec.extractLsb'_append_eq_of_le (Nat.le_refl 64)]
    exact BitVec.extractLsb'_append_eq_right
  have hdata : tData (tWord we loc data) = data := BitVec.extractLsb'_append_eq_right
  rw [decodeT, hwe, hidx, hdata, Loc.ofIndex_index]

end Sys2Proof.Machine
end

section
/-! PROOFS. An operation seen as a countdown of engine steps: `ResultWithin`, for ISPRIME (40_isprime.md) and MODEXP
(41_modexp.md). -/

namespace Sys2Proof.Machine

/-- At most `k` engine steps away from its completion with result `v`: after `k` of them PHASE is IDLE, DONE = 1 and RES
is `v` (R29; an engine step while IDLE changes nothing, log 3). -/
def State.ResultWithin (s : State) (v : Word) (k : Nat) : Prop :=
  match k with
  | 0 => s.phase = .idle ∧ s.done = true ∧ s.x3 = v
  | k + 1 => ∃ t, engineStep s = .next t ∧ t.ResultWithin v k

/-! The engine's step by PHASE (R13, R25). -/

theorem engineStep_of_idle {s : State} (h : s.phase = .idle) : engineStep s = .next s := by rw [engineStep, h]
theorem engineStep_of_tdStart {s : State} (h : s.phase = .tdStart) : engineStep s = stepTdStart s := by
  rw [engineStep, h]
theorem engineStep_of_tdLoop {s : State} (h : s.phase = .tdLoop) : engineStep s = stepTdLoop s := by rw [engineStep, h]
theorem engineStep_of_meStart {s : State} (h : s.phase = .meStart) : engineStep s = stepMeStart s := by
  rw [engineStep, h]
theorem engineStep_of_meLoop {s : State} (h : s.phase = .meLoop) : engineStep s = stepMeLoop s := by rw [engineStep, h]

/-- A completed operation stays so while the engine rests. -/
theorem resultWithin_of_completed {s : State} {v : Word} (h : s.phase = .idle ∧ s.done = true ∧ s.x3 = v) (k : Nat) :
    s.ResultWithin v k := by
  induction k with
  | zero => exact h
  | succ k ih => exact ⟨s, engineStep_of_idle h.1, ih⟩

/-- The step that completes is the last. -/
theorem resultWithin_of_complete {s : State} {v : Word} (h : engineStep s = .next (complete v s)) (k : Nat) :
    s.ResultWithin v (k + 1) :=
  ⟨_, h, resultWithin_of_completed ⟨rfl, rfl, rfl⟩ k⟩

/-- The state with the host side, its schedule and its answers, replaced. -/
def State.withHostSide (s : State) (ts : List Turn) (as : List Word) : State :=
  { s with pending := ts, answers := as }

/-- The engine neither reads nor writes the schedule and the answers. -/
theorem engineStep_hostSide {s t : State} (h : engineStep s = .next t) (ts : List Turn) (as : List Word) :
    engineStep (s.withHostSide ts as) = .next (t.withHostSide ts as) := by
  have phase : (s.withHostSide ts as).phase = s.phase := rfl
  cases hp : s.phase with
  | idle | faulted =>
    simp only [engineStep, State.withHostSide, hp] at h ⊢
    cases h
    rw [hp]
  | tdStart =>
    rw [engineStep_of_tdStart hp] at h
    rw [engineStep_of_tdStart (phase.trans hp)]
    simp only [stepTdStart] at h ⊢
    split_ifs at h <;> cases h <;> simp [State.withHostSide, complete, *]
  | tdLoop =>
    rw [engineStep_of_tdLoop hp] at h
    rw [engineStep_of_tdLoop (phase.trans hp)]
    simp only [stepTdLoop, withRemainder] at h ⊢
    split_ifs at h <;> cases h <;> simp [State.withHostSide, complete, *]
  | meStart =>
    rw [engineStep_of_meStart hp] at h
    rw [engineStep_of_meStart (phase.trans hp)]
    simp only [stepMeStart, operandModulus, operandBase, operandExp] at h ⊢
    split_ifs at h <;> cases h <;> simp [State.withHostSide, complete, raise, *]
  | meLoop =>
    rw [engineStep_of_meLoop hp] at h
    rw [engineStep_of_meLoop (phase.trans hp)]
    simp only [stepMeLoop, withRemainder] at h ⊢
    split_ifs at h <;> cases h <;> simp [State.withHostSide, complete, *]

/-- So the schedule and the answers play no part in the countdown. -/
theorem resultWithin_hostSide {s : State} {v : Word} {k : Nat} (h : s.ResultWithin v k) (ts : List Turn)
    (as : List Word) : (s.withHostSide ts as).ResultWithin v k := by
  induction k generalizing s with
  | zero => exact h
  | succ k ih =>
    obtain ⟨t, ht, hres⟩ := h
    exact ⟨_, engineStep_hostSide ht ts as, ih hres⟩

/-! ### ISPRIME -/

/-- The result of ISPRIME on `n` (R90). -/
def primalityWord (n : Word) : Word := if Nat.Prime n.toNat then 1#64 else 0#64

/-- An odd number with no odd divisor from 3 to its square root is prime (R97). -/
theorem prime_of_no_odd_divisor {n i : Nat} (odd : n % 2 = 1) (h3 : 3 ≤ n)
    (none : ∀ d, 3 ≤ d → d < i → d % 2 = 1 → ¬ d ∣ n) (bound : n < i * i) : n.Prime := by
  by_contra composite
  have dvd : n.minFac ∣ n := n.minFac_dvd
  have oddFactor : n.minFac % 2 = 1 := Nat.odd_iff.1 ((Nat.odd_iff.2 odd).of_dvd_nat dvd)
  have two_le : 2 ≤ n.minFac := (Nat.minFac_prime (by omega)).two_le
  have square : n.minFac ^ 2 ≤ n := Nat.minFac_sq_le_self (by omega) composite
  have small : n.minFac < i := by
    by_contra large
    have : i * i ≤ n.minFac * n.minFac := Nat.mul_self_le_mul_self (by omega)
    rw [pow_two] at square
    omega
  exact none _ (by omega) small oddFactor dvd

/-- A step of the trial division that goes on keeps its loop invariant (R97). -/
theorem divisorInv_nextDivisor {s : State} (h : s.DivisorInv) (hp : s.phase = .tdLoop)
    (hle : s.i.toNat * s.i.toNat ≤ s.x0.toNat) (hdvd : ¬ s.i.toNat ∣ s.x0.toNat) :
    State.DivisorInv { s with i := nextDivisor s.i } := by
  obtain ⟨nOdd, n3, iOdd, i3, -, none⟩ := h hp
  have below : s.i.toNat < 2 ^ 32 := divisor_lt_of_square_le s.x0.isLt hle
  have next : (nextDivisor s.i).toNat = s.i.toNat + 2 := nextDivisor_toNat _ (by omega)
  intro _
  simp only [next]
  refine ⟨nOdd, n3, by omega, by omega, by omega, fun d d3 hd dOdd => ?_⟩
  rcases Nat.lt_trichotomy d s.i.toNat with less | rfl | greater
  · exact none d d3 less dOdd
  · exact hdvd
  · omega

theorem primalityWord_of_prime {n : Word} (h : n.toNat.Prime) : primalityWord n = 1#64 := if_pos h
theorem primalityWord_of_not_prime {n : Word} (h : ¬ n.toNat.Prime) : primalityWord n = 0#64 := if_neg h

/-- A step of the trial division answers right, or the divisor is no factor and below the bound (R93, R97). -/
theorem engineStep_tdLoop_cases {s : State} (h : s.DivisorInv) (hp : s.phase = .tdLoop) :
    engineStep s = .next (complete (primalityWord s.x0) s) ∨
    (s.i.toNat * s.i.toNat ≤ s.x0.toNat ∧ ¬ s.i.toNat ∣ s.x0.toNat ∧
      engineStep s = .next { s with i := nextDivisor s.i }) := by
  obtain ⟨nOdd, n3, -, i3, -, none⟩ := h hp
  rw [engineStep_of_tdLoop hp]
  rcases stepTdLoop_cases s (by omega) with ⟨bound, e⟩ | ⟨hle, hdvd, e⟩ | next
  · rw [primalityWord_of_prime (prime_of_no_odd_divisor nOdd n3 none bound)]
    exact .inl e
  · have less : s.i.toNat < s.x0.toNat := by nlinarith
    rw [primalityWord_of_not_prime (Nat.not_prime_of_dvd_of_lt hdvd (by omega) less)]
    exact .inl e
  · exact .inr next

/-- The trial division ends with the right answer at the latest at the divisor `i + 2 * k`, if that one ends it. -/
theorem resultWithin_of_tdLoop {s : State} (k : Nat) (h : s.DivisorInv) (hp : s.phase = .tdLoop)
    (last : s.x0.toNat < (s.i.toNat + 2 * k) * (s.i.toNat + 2 * k) ∨ s.i.toNat + 2 * k ∣ s.x0.toNat) :
    s.ResultWithin (primalityWord s.x0) (k + 1) := by
  induction k generalizing s with
  | zero =>
    rcases engineStep_tdLoop_cases h hp with e | ⟨hle, hdvd, -⟩
    · exact resultWithin_of_complete e 0
    · exact (last.elim (Nat.not_lt.2 hle) hdvd).elim
  | succ k ih =>
    rcases engineStep_tdLoop_cases h hp with e | ⟨hle, hdvd, e⟩
    · exact resultWithin_of_complete e _
    · have below : s.i.toNat < 2 ^ 32 := divisor_lt_of_square_le s.x0.isLt hle
      have next : (nextDivisor s.i).toNat = s.i.toNat + 2 := nextDivisor_toNat _ (by omega)
      refine ⟨_, e, ih (divisorInv_nextDivisor h hp hle hdvd) hp ?_⟩
      simp only [next]
      rwa [show s.i.toNat + 2 + 2 * k = s.i.toNat + 2 * (k + 1) by omega]

/-- The steps that R99 counts after TD_START reach the divisor that ends the trial division: one above the square root of
a prime, the least factor of a composite number. -/
theorem isprimeSteps_of_odd {n : Nat} (h3 : 3 ≤ n) (odd : n % 2 = 1) :
    ∃ k, isprimeSteps n = k + 1 + 1 ∧ (n < (3 + 2 * k) * (3 + 2 * k) ∨ 3 + 2 * k ∣ n) := by
  rw [isprimeSteps, if_neg (by omega)]
  split
  case isTrue prime =>
    refine ⟨_, rfl, .inl ?_⟩
    have root : 1 ≤ n.sqrt := Nat.le_sqrt.2 (by omega)
    exact Nat.sqrt_lt.1 (by omega)
  case isFalse composite =>
    refine ⟨_, rfl, .inr ?_⟩
    have oddFactor : n.minFac % 2 = 1 := Nat.odd_iff.1 ((Nat.odd_iff.2 odd).of_dvd_nat n.minFac_dvd)
    have two_le : 2 ≤ n.minFac := (Nat.minFac_prime (by omega)).two_le
    rw [show 3 + 2 * ((n.minFac - 3) / 2) = n.minFac by omega]
    exact n.minFac_dvd

/-- Setting up the trial division makes its loop invariant (R92). -/
theorem divisorInv_enter {s : State} (h3 : 3 ≤ s.x0.toNat) (odd : s.x0.toNat % 2 = 1) :
    State.DivisorInv { s with i := 3#64, phase := .tdLoop } :=
  fun _ => ⟨odd, h3, by simp, by simp, by simp, fun d d3 hd _ => absurd hd (Nat.not_lt.2 d3)⟩

/-- ISPRIME ends within the steps of R99 with 1 iff `n` is prime (R97). -/
theorem resultWithin_of_tdStart {s : State} (hp : s.phase = .tdStart) :
    s.ResultWithin (primalityWord s.x0) (isprimeSteps s.x0.toNat) := by
  have engine := engineStep_of_tdStart hp
  rcases stepTdStart_cases s with ⟨small, e⟩ | ⟨two, e⟩ | ⟨above, even, e⟩ | ⟨h3, odd, e⟩
  · rw [isprimeSteps, if_pos (.inl small), primalityWord_of_not_prime fun p => absurd p.two_le (by omega)]
    exact resultWithin_of_complete (engine.trans e) 0
  · rw [isprimeSteps, if_pos (.inr (by rw [two])), primalityWord_of_prime (two ▸ Nat.prime_two)]
    exact resultWithin_of_complete (engine.trans e) 0
  · have composite : ¬ s.x0.toNat.Prime := Nat.not_prime_of_dvd_of_lt (Nat.dvd_of_mod_eq_zero even) (le_refl 2) above
    rw [isprimeSteps, if_pos (.inr even), primalityWord_of_not_prime composite]
    exact resultWithin_of_complete (engine.trans e) 0
  · obtain ⟨k, count, last⟩ := isprimeSteps_of_odd h3 odd
    rw [count]
    exact ⟨_, engine.trans e, resultWithin_of_tdLoop k (divisorInv_enter h3 odd) rfl last⟩

/-! ### MODEXP -/

/-- The result of MODEXP with modulus at least 1 (R110). -/
def powerWord (b e m : Word) : Word := BitVec.ofNat 64 (b.toNat ^ e.toNat % m.toNat)

/-- One round of square and multiply keeps the power still to be made (R115). -/
theorem square_multiply (a q e m : Nat) :
    (if e % 2 = 1 then a * q % m else a) * (q * q % m) ^ (e / 2) % m = a * q ^ e % m := by
  have square : (q * q % m) ^ (e / 2) ≡ q ^ (2 * (e / 2)) [MOD m] := by
    rw [pow_mul, pow_two]
    exact (Nat.mod_modEq _ _).pow _
  rcases Nat.mod_two_eq_zero_or_one e with even | odd
  · rw [if_neg (by omega)]
    have : 2 * (e / 2) = e := by omega
    rw [this] at square
    exact square.mul_left a
  · rw [if_pos odd]
    have : e = 2 * (e / 2) + 1 := by omega
    calc (a * q % m) * (q * q % m) ^ (e / 2) % m
        = a * q * q ^ (2 * (e / 2)) % m := (Nat.mod_modEq _ _).mul square
      _ = a * q ^ (2 * (e / 2) + 1) % m := by rw [pow_succ', mul_assoc]
      _ = a * q ^ e % m := by rw [← this]

/-- Setting up the power loop makes its invariant (R112, R115). -/
theorem powerInv_enter {s : State} {sq' : Word} (h2 : 2 ≤ s.x2.toNat) (hsq : sq'.toNat = s.x0.toNat % s.x2.toNat) :
    State.PowerInv { s with acc := 1#64, sq := sq', e := s.x1, phase := .meLoop } := by
  refine fun _ => ⟨h2, h2, hsq ▸ Nat.mod_lt _ (by omega), ?_⟩
  show 1 * sq'.toNat ^ s.x1.toNat % s.x2.toNat = s.x0.toNat ^ s.x1.toNat % s.x2.toNat
  rw [one_mul, hsq, ← Nat.pow_mod]

/-- A step of the power loop that goes on keeps its invariant (R113, R115). -/
theorem powerInv_meLoop_step {s : State} {acc' sq' : Word} (h : s.PowerInv) (hp : s.phase = .meLoop)
    (hacc : acc'.toNat = if s.e.toNat % 2 = 1 then (s.acc.toNat * s.sq.toNat) % s.x2.toNat else s.acc.toNat)
    (hsq : sq'.toNat = (s.sq.toNat * s.sq.toNat) % s.x2.toNat) :
    State.PowerInv { s with acc := acc', sq := sq', e := shiftRight1 s.e } := by
  obtain ⟨m2, accLt, -, power⟩ := h hp
  have pos : 0 < s.x2.toNat := by omega
  refine fun _ => ⟨m2, ?_, hsq ▸ Nat.mod_lt _ pos, ?_⟩
  · show acc'.toNat < s.x2.toNat
    rw [hacc]
    split
    · exact Nat.mod_lt _ pos
    · exact accLt
  · show acc'.toNat * sq'.toNat ^ (shiftRight1 s.e).toNat % s.x2.toNat = s.x0.toNat ^ s.x1.toNat % s.x2.toNat
    rw [hacc, hsq, shiftRight1_toNat, square_multiply, power]

/-- With no exponent bits left ACC is the result (R116). -/
theorem acc_eq_powerWord {s : State} (h : s.PowerInv) (hp : s.phase = .meLoop) (he : s.e.toNat = 0) :
    s.acc = powerWord s.x0 s.x1 s.x2 := by
  obtain ⟨-, accLt, -, power⟩ := h hp
  rw [he, pow_zero, mul_one, Nat.mod_eq_of_lt accLt] at power
  rw [powerWord, ← power, BitVec.ofNat_toNat, BitVec.setWidth_eq]

/-- The power loop ends with the right answer one step after the last of the exponent's `k` bits (R116, R119). -/
theorem resultWithin_of_meLoop {s : State} (k : Nat) (h : s.PowerInv) (hp : s.phase = .meLoop)
    (bits : s.e.toNat < 2 ^ k) : s.ResultWithin (powerWord s.x0 s.x1 s.x2) (k + 1) := by
  induction k generalizing s with
  | zero =>
    obtain ⟨m2, -⟩ := h hp
    have he : s.e.toNat = 0 := by omega
    rw [← acc_eq_powerWord h hp he]
    rcases stepMeLoop_cases s (by omega) with ⟨-, e⟩ | ⟨ne, -⟩
    · exact resultWithin_of_complete ((engineStep_of_meLoop hp).trans e) 0
    · exact absurd he ne
  | succ k ih =>
    obtain ⟨m2, -⟩ := h hp
    rcases stepMeLoop_cases s (by omega) with ⟨he, e⟩ | ⟨-, acc', sq', hacc, hsq, e⟩
    · rw [← acc_eq_powerWord h hp he]
      exact resultWithin_of_complete ((engineStep_of_meLoop hp).trans e) _
    · have shorter : (shiftRight1 s.e).toNat < 2 ^ k := by rw [shiftRight1_toNat]; omega
      exact ⟨_, (engineStep_of_meLoop hp).trans e, ih (powerInv_meLoop_step h hp hacc hsq) hp shorter⟩

/-- MODEXP with modulus at least 1 ends within the steps of R119 with `base^exp mod modulus` (R116). -/
theorem resultWithin_of_meStart {s : State} (hp : s.phase = .meStart) (hm : s.x2 ≠ 0#64) :
    s.ResultWithin (powerWord s.x0 s.x1 s.x2) (modexpSteps s.x1.toNat s.x2.toNat) := by
  have engine := engineStep_of_meStart hp
  rcases stepMeStart_cases s with ⟨zero, -⟩ | ⟨one, e⟩ | ⟨h2, hsq, e⟩
  · exact absurd ((toNat_eq_zero_iff _).2 zero) hm
  · rw [modexpSteps, if_pos (by omega), powerWord, one, Nat.mod_one]
    exact resultWithin_of_complete (engine.trans e) 0
  · rw [modexpSteps, if_neg (by omega), Nat.add_comm 1]
    exact ⟨_, engine.trans e, resultWithin_of_meLoop _ (powerInv_enter h2 hsq) rfl (Nat.lt_size_self _)⟩

end Sys2Proof.Machine
end

section
/-! PROOFS. The two calls of R80 under every interleaving of their polls (30_encoding.md): an operation counts down while
the host waits. -/

namespace Sys2Proof.Machine

/-! ### Runs of some length -/

/-- Some number of transitions leads from `s` to `t`. -/
def Reaches (s t : State) : Prop := ∃ k, run k s = .next t

theorem Reaches.refl (s : State) : Reaches s s := ⟨0, rfl⟩

theorem Reaches.trans {s t u : State} : Reaches s t → Reaches t u → Reaches s u := by
  rintro ⟨j, hj⟩ ⟨k, hk⟩
  exact ⟨j + k, (run_add k hj).trans hk⟩

theorem Reaches.of_step {s t : State} (h : step s = .next t) : Reaches s t := ⟨1, run_succ 0 h⟩

theorem Reaches.head {s t u : State} (h : step s = .next t) (htu : Reaches t u) : Reaches s u := (of_step h).trans htu

/-! ### The lines of a script -/

/-- What a read answers does not depend on the schedule (R51). -/
theorem memRead_withTurns (loc : Loc) (s : State) (ts : List Turn) : memRead loc (s.withTurns ts) = memRead loc s := by
  cases loc <;> rfl

theorem step_wr_line {s : State} {rest : List Turn} (reg : RegName) (v : Word)
    (h : s.pending = ScriptLine.turn (.wr reg v) :: rest) : step s = .next (memWrite reg.loc v (s.withTurns rest)) := by
  rw [step_host ⟨rest, h, rfl⟩, ScriptLine.word, decodeT_tWord]
  rfl

theorem step_rd_line {s : State} {rest : List Turn} (reg : RegName)
    (h : s.pending = ScriptLine.turn (.rd reg) :: rest) :
    step s = .next (answer (memRead reg.loc s) (s.withTurns rest)) := by
  rw [step_host ⟨rest, h, rfl⟩, ScriptLine.word, decodeT_tWord, ← memRead_withTurns reg.loc s rest]
  rfl

/-- A write while IDLE takes its effect (R53, R54). -/
theorem step_wr_line_of_idle {s : State} {rest : List Turn} (idle : s.phase = .idle) (reg : RegName) (v : Word)
    (h : s.pending = ScriptLine.turn (.wr reg v) :: rest) :
    step s = .next (writeIdle reg.loc v (s.withTurns rest)) :=
  (step_wr_line reg v h).trans (congrArg _ (writeGate_idle idle))

/-- The line `isprime` while IDLE is the acceptance of ISPRIME (R80, R91). -/
theorem step_isprime_line_of_idle {s : State} {rest : List Turn} (idle : s.phase = .idle)
    (h : s.pending = ScriptLine.turn .isprime :: rest) : step s = .next (accept .isprime (s.withTurns rest)) :=
  (step_wr_line_of_idle idle .CMD isprimeWord h).trans (congrArg _ (command_isprime _))

/-- The line `modexp` while IDLE is the acceptance of MODEXP (R80, R111). -/
theorem step_modexp_line_of_idle {s : State} {rest : List Turn} (idle : s.phase = .idle)
    (h : s.pending = ScriptLine.turn .modexp :: rest) : step s = .next (accept .modexp (s.withTurns rest)) :=
  (step_wr_line_of_idle idle .CMD modexpWord h).trans (congrArg _ (command_modexp _))

/-! ### Waiting -/

/-- Each engine turn counts down by one; after the completion it changes nothing. -/
theorem engineStep_countdown {s : State} {v : Word} {k : Nat} (h : s.ResultWithin v k) :
    ∃ t, engineStep s = .next t ∧ t.ResultWithin v (k - 1) := by
  cases k with
  | zero => exact ⟨s, engineStep_of_idle h.1, h⟩
  | succ k => exact h

theorem resultWithin_withTurns {s : State} {v : Word} {k : Nat} (h : s.ResultWithin v k) (ts : List Turn) :
    (s.withTurns ts).ResultWithin v k := resultWithin_hostSide h ts s.answers

/-- A poll does not disturb the countdown (R51). -/
theorem resultWithin_answer {s : State} {v : Word} {k : Nat} (h : s.ResultWithin v k) (a : Word) :
    (answer a s).ResultWithin v k := resultWithin_hostSide h s.pending (a :: s.answers)

/-- `g` engine turns count down by `g`. -/
theorem reaches_engine_turns {s : State} {v : Word} {k : Nat} {rest : List Turn} (g : Nat) (h : s.ResultWithin v k)
    (hp : s.pending = List.replicate g .engine ++ rest) :
    ∃ t, Reaches s t ∧ t.ResultWithin v (k - g) ∧ t.pending = rest ∧ t.wdrop = s.wdrop ∧ t.answers = s.answers := by
  induction g generalizing s k with
  | zero => exact ⟨s, .refl s, h, hp, rfl, rfl⟩
  | succ g ih =>
    obtain ⟨u, hu, hres⟩ := engineStep_countdown (resultWithin_withTurns h (List.replicate g .engine ++ rest))
    obtain ⟨-, -, -, hw, hpend, ha⟩ := engineStep_keeps hu
    obtain ⟨t, hut, hrest, tp, tw, ta⟩ := ih hres hpend
    have hstep : step s = .next u := (step_engine (.inr ⟨_, hp, rfl⟩)).trans hu
    rw [Nat.sub_sub, Nat.add_comm] at hrest
    exact ⟨t, .head hstep hut, hrest, tp, tw.trans hw, ta.trans ha⟩

/-- `wait` counts down by all its engine turns; its last poll finds the STATUS that it leaves (R80). -/
theorem reaches_wait {s : State} {v : Word} {k : Nat} {rest : List Turn} (gaps : List Nat) (h : s.ResultWithin v k)
    (hp : s.pending = waitTurns gaps ++ rest) :
    ∃ (t : State) (polls : List Word), Reaches s t ∧ t.ResultWithin v (k - gaps.sum) ∧ t.pending = rest ∧
      t.wdrop = s.wdrop ∧ t.answers = polls ++ s.answers ∧ polls.length = gaps.length ∧
      (gaps ≠ [] ∨ s.answers.head? = some (statusWord s) → t.answers.head? = some (statusWord t)) := by
  induction gaps generalizing s k with
  | nil => exact ⟨s, [], .refl s, h, hp, rfl, rfl, rfl, fun hpoll => hpoll.resolve_left (absurd rfl)⟩
  | cons g gaps ih =>
    rw [waitTurns, List.append_assoc] at hp
    obtain ⟨u, hsu, hres, up, uw, ua⟩ := reaches_engine_turns g h hp
    have poll := step_rd_line .STATUS up
    obtain ⟨t, polls, hut, hrest, tp, tw, ta, len, last⟩ :=
      ih (resultWithin_answer (resultWithin_withTurns hres _) (statusWord u)) rfl
    refine ⟨t, polls ++ [statusWord u], hsu.trans (.head poll hut), ?_, tp, tw.trans uw, ?_, ?_, ?_⟩
    · rwa [List.sum_cons, ← Nat.sub_sub]
    · rw [ta, answer_answers, withTurns_answers, ua, List.append_assoc, List.singleton_append]
    · rw [List.length_append, len]; rfl
    · exact fun _ => last (.inr rfl)

/-- Where a run has started an operation, with enough engine turns in the `wait` that follows, the last poll finds the
operation completed. -/
theorem reaches_completion {r s : State} {v : Word} {k : Nat} {gaps : List Nat} {rest : List Turn} (start : Reaches r s)
    (busy : s.busy = true) (h : s.ResultWithin v k) (enough : k ≤ gaps.sum) (hp : s.pending = waitTurns gaps ++ rest) :
    ∃ (t : State) (polls : List Word), Reaches r t ∧ (t.phase = .idle ∧ t.done = true ∧ t.x3 = v) ∧ t.pending = rest ∧
      t.wdrop = s.wdrop ∧ t.answers = polls ++ s.answers ∧ polls.length = gaps.length ∧
      polls.head? = some (statusWord t) := by
  obtain ⟨t, polls, hst, hres, tp, tw, ta, len, last⟩ := reaches_wait gaps h hp
  have polled : gaps ≠ [] := by
    rintro rfl
    obtain rfl : k = 0 := Nat.le_zero.1 enough
    exact (phase_of_busy busy).1 h.1
  rw [Nat.sub_eq_zero_of_le enough] at hres
  refine ⟨t, polls, start.trans hst, hres, tp, tw, ta, len, ?_⟩
  have nonempty : polls ≠ [] := fun e => polled (List.length_eq_zero_iff.1 (by rw [← len, e]; rfl))
  rw [← last (.inl polled), ta, List.head?_append_of_ne_nil _ nonempty]

/-- STATUS after a completion: BUSY = 0, FAULT = 0, DONE = 1, and WDROP (R26). -/
theorem statusWord_of_completed {s : State} (hp : s.phase = .idle) (hd : s.done = true) :
    statusWord s = if s.wdrop then 0xA#64 else 0x2#64 := by
  simp only [statusWord, State.busy, State.faultBit, hp, hd]
  cases s.wdrop <;> rfl

/-! ### The calls -/

/-- The opening of `call is_prime`: the operand is written and ISPRIME runs. -/
theorem reaches_isprime_start {s : State} {n : Word} {rest : List Turn} (idle : s.phase = .idle)
    (hp : s.pending = ScriptLine.turn (.wr .N n) :: ScriptLine.turn .isprime :: rest) :
    Reaches s { s with x0 := n, done := false, phase := .tdStart, pending := rest } :=
  .head (step_wr_line_of_idle idle .N n hp) (.of_step (step_isprime_line_of_idle idle rfl))

/-- Settles O49: the write and the command start ISPRIME, which counts down during the `wait`; the last line reads RES. -/
theorem callIsPrimeAnswers : Obligations.CallIsPrimeAnswers := by
  intro s n gaps rest idle enough hp
  have lines : s.pending = ScriptLine.turn (.wr .N n) :: ScriptLine.turn .isprime ::
      (waitTurns gaps ++ ScriptLine.turn (.rd .RES) :: rest) := by simp [hp, callIsPrime]
  have start := reaches_isprime_start idle lines
  obtain ⟨t, polls, wait, ⟨tIdle, tDone, result⟩, tp, tw, ta, len, last⟩ :=
    reaches_completion start rfl (resultWithin_of_tdStart rfl) enough rfl
  have read := step_rd_line .RES tp
  obtain ⟨k, hk⟩ := wait.trans (.of_step read)
  refine ⟨k, _, polls, hk, rfl, tIdle, ?_, len, ?_⟩
  · exact congrArg₂ List.cons result ta
  · rw [last, statusWord_of_completed tIdle tDone, tw]

/-- The opening of `call mod_exp`: the operands are written and MODEXP runs. -/
theorem reaches_modexp_start {s : State} {b e m : Word} {rest : List Turn} (idle : s.phase = .idle)
    (hp : s.pending = ScriptLine.turn (.wr .BASE b) :: ScriptLine.turn (.wr .EXP e) :: ScriptLine.turn (.wr .MOD m) ::
      ScriptLine.turn .modexp :: rest) :
    Reaches s { s with x0 := b, x1 := e, x2 := m, done := false, phase := .meStart, pending := rest } :=
  .head (step_wr_line_of_idle idle .BASE b hp) <|
    .head (step_wr_line_of_idle (by exact idle) .EXP e rfl) <|
    .head (step_wr_line_of_idle (by exact idle) .MOD m rfl) <|
    .of_step (step_modexp_line_of_idle (by exact idle) rfl)

/-- Settles O50: the writes and the command start MODEXP, which counts down during the `wait`; the last two lines read
STATUS, as the last poll did, and RES. -/
theorem callModExpAnswers : Obligations.CallModExpAnswers := by
  intro s b e m gaps rest idle hm enough hp
  have lines : s.pending = ScriptLine.turn (.wr .BASE b) :: ScriptLine.turn (.wr .EXP e) ::
      ScriptLine.turn (.wr .MOD m) :: ScriptLine.turn .modexp ::
      (waitTurns gaps ++ ScriptLine.turn (.rd .STATUS) :: ScriptLine.turn (.rd .RES) :: rest) := by
    simp [hp, callModExp]
  have start := reaches_modexp_start idle lines
  obtain ⟨t, polls, wait, ⟨tIdle, tDone, result⟩, tp, tw, ta, len, last⟩ :=
    reaches_completion start rfl (resultWithin_of_meStart rfl hm) enough rfl
  have status := statusWord_of_completed tIdle tDone
  rw [tw] at status
  have readStatus := step_rd_line .STATUS tp
  obtain ⟨k, hk⟩ := wait.trans (.head readStatus (.of_step (step_rd_line .RES rfl)))
  refine ⟨k, _, polls, hk, rfl, tIdle, ?_, len, last.trans (congrArg some status)⟩
  exact congrArg₂ List.cons result (congrArg₂ List.cons status ta)

end Sys2Proof.Machine
end

section
/-! PROOFS. ISPRIME step by step (40_isprime.md): its acceptance (R91), its two engine steps (R92, R93), and that none of
its steps faults (R98). -/

namespace Sys2Proof.Machine

/-- Settles O16: the gate is open while IDLE, and both spellings are the acceptance of ISPRIME. -/
theorem isprimeAcceptedWhenIdle : Obligations.IsprimeAcceptedWhenIdle := by
  intro s idle
  refine ⟨?_, ?_⟩
  · rw [exec_isprime, issue, writeGate_idle idle]
    rfl
  · rw [exec_wr_of_idle .cmd _ idle]
    exact congrArg _ (command_isprime s)

/-- Settles O19: the four cases of TD_START exclude one another. -/
theorem isprimeStartStep : Obligations.IsprimeStartStep := by
  intro s u hu hp
  obtain ⟨ts, rfl⟩ := engineNext_withTurns hu
  have engine : step s = stepTdStart (s.withTurns ts) := (step_engine hu).trans (engineStep_of_tdStart hp)
  have branches := stepTdStart_cases (s.withTurns ts)
  simp only [← engine, withTurns_x0] at branches
  rcases branches with ⟨hn, e⟩ | ⟨hn, e⟩ | ⟨hn, even, e⟩ | ⟨hn, odd, e⟩ <;> rw [e]
  · exact ⟨fun _ => rfl, by omega, by omega, by omega⟩
  · exact ⟨by omega, fun _ => rfl, by omega, by omega⟩
  · exact ⟨by omega, by omega, fun _ _ => rfl, by omega⟩
  · exact ⟨by omega, by omega, by omega, fun _ _ => rfl⟩

/-- The next divisor does not wrap where the trial division goes on (R93, R96). -/
theorem nextDivisor_toNat_of_square_le {s : State} (hle : s.i.toNat * s.i.toNat ≤ s.x0.toNat) :
    (nextDivisor s.i).toNat = s.i.toNat + 2 := by
  have below : s.i.toNat < 2 ^ 32 := divisor_lt_of_square_le s.x0.isLt hle
  exact nextDivisor_toNat _ (by omega)

/-- Settles O20: the bound test, then the divisibility test; a divisor within the bound is far from wrapping. -/
theorem isprimeLoopStep : Obligations.IsprimeLoopStep := by
  intro s u hu hp i3
  obtain ⟨ts, rfl⟩ := engineNext_withTurns hu
  have engine : step s = stepTdLoop (s.withTurns ts) := (step_engine hu).trans (engineStep_of_tdLoop hp)
  have branches := stepTdLoop_cases (s.withTurns ts) (Nat.ne_zero_of_lt i3)
  simp only [← engine, withTurns_x0, withTurns_i, Nat.dvd_iff_mod_eq_zero] at branches
  rcases branches with ⟨bound, e⟩ | ⟨hle, dvd, e⟩ | ⟨hle, dvd, e⟩ <;> rw [e]
  · exact ⟨fun _ => rfl, by omega, by omega⟩
  · exact ⟨by omega, fun _ _ => rfl, by omega⟩
  · exact ⟨by omega, by omega, fun _ _ => ⟨rfl, nextDivisor_toNat_of_square_le hle⟩⟩

/-- No step leads from a busy phase to FAULTED, but the one of ME_START (R134). -/
theorem phase_ne_faulted_of_step {s t : State} (h : step s = .next t) (busy : s.busy = true) (hp : s.phase ≠ .meStart) :
    t.phase ≠ .faulted := by
  rcases step_cases h with ⟨u, hu, he⟩ | ⟨w, u, hu, he⟩ | ⟨rest, -, rfl⟩
  · obtain ⟨ts, rfl⟩ := engineNext_withTurns hu
    rcases engineStep_control he with ⟨idle, -⟩ | ⟨-, v, rfl⟩ | ⟨-, start, -⟩ | ⟨-, goesOn, -⟩
    · exact absurd busy (Bool.eq_false_iff.1 idle)
    · exact nofun
    · exact absurd start hp
    · exact (phase_of_busy goesOn).2
  · obtain ⟨ts, rfl⟩ := hostNext_withTurns hu
    rcases exec_decodeT_control he with ⟨v, idle, -⟩ | ⟨same, -⟩
    · exact absurd idle (phase_of_busy busy).1
    · rw [same]
      exact (phase_of_busy busy).2
  · exact nofun

/-- Settles O38: under the invariant the step answers, and out of FAULTED CAUSE is 0. -/
theorem isprimeNeverFaults : Obligations.IsprimeNeverFaults := by
  intro s inv running
  have busy : s.busy = true := running.elim (congrArg Phase.busy) (congrArg Phase.busy)
  have notStart : s.phase ≠ .meStart := by rcases running with hp | hp <;> simp [hp]
  obtain ⟨t, ht⟩ := step_answers inv
  have notFaulted := phase_ne_faulted_of_step ht busy notStart
  exact ⟨t, ht, notFaulted, cause_eq_zero_of_inv (inv_step inv ht) notFaulted⟩

end Sys2Proof.Machine
end

section
/-! PROOFS. The whole run of ISPRIME (40_isprime.md R97, R99): its exact length, with BUSY before each step, and the state
it ends in. -/

namespace Sys2Proof.Machine

/-- `k` transitions lead from `s` to `t`, and the unit is BUSY before each of them. -/
def BusyRun (k : Nat) (s t : State) : Prop :=
  run k s = .next t ∧ ∀ j < k, ∃ u, run j s = .next u ∧ u.busy = true

/-- A transition out of a BUSY state lengthens the run by one. -/
theorem BusyRun.head {k : Nat} {s t u : State} (busy : s.busy = true) (h : step s = .next t) (htu : BusyRun k t u) :
    BusyRun (k + 1) s u := by
  obtain ⟨reach, before⟩ := htu
  refine ⟨(run_succ k h).trans reach, fun j hj => ?_⟩
  cases j with
  | zero => exact ⟨s, run_zero s, busy⟩
  | succ j =>
    obtain ⟨v, hv, vbusy⟩ := before j (by omega)
    exact ⟨v, (run_succ j h).trans hv, vbusy⟩

/-- A single transition out of a BUSY state. -/
theorem BusyRun.of_step {s t : State} (busy : s.busy = true) (h : step s = .next t) : BusyRun 1 s t :=
  .head busy h ⟨run_zero t, nofun⟩

/-- With no turn left the step is the engine's (R158; log 2). -/
theorem step_of_no_turn {s : State} (h : s.pending = []) : step s = engineStep s := step_engine (.inl ⟨h, rfl⟩)

/-- A candidate at least two below the last one that R99 counts lies within the bound and is no divisor. -/
theorem candidate_before_last {n k d : Nat} (odd : n % 2 = 1) (n3 : 3 ≤ n) (count : isprimeSteps n = k + 1 + 1)
    (d3 : 3 ≤ d) (hd : d + 2 ≤ 3 + 2 * k) : d * d ≤ n ∧ ¬ d ∣ n := by
  rw [isprimeSteps, if_neg (by omega)] at count
  split at count
  case isTrue prime =>
    have within : d * d ≤ n := Nat.le_sqrt.1 (by omega)
    have less : d < n := by nlinarith
    exact ⟨within, fun dvd => Nat.not_prime_of_dvd_of_lt dvd (by omega) less prime⟩
  case isFalse composite =>
    have less : d < n.minFac := by omega
    have square : n.minFac ^ 2 ≤ n := Nat.minFac_sq_le_self (by omega) composite
    exact ⟨by nlinarith, fun dvd => absurd (Nat.minFac_le_of_dvd (by omega) dvd) (Nat.not_le.2 less)⟩

/-- The trial division ends with the right answer at the divisor `i + 2 * k`, if that one ends it and none before does. -/
theorem busyRun_of_tdLoop {s : State} (k : Nat) (h : s.DivisorInv) (hp : s.phase = .tdLoop) (turns : s.pending = [])
    (goesOn : ∀ d, s.i.toNat ≤ d → d + 2 ≤ s.i.toNat + 2 * k → d * d ≤ s.x0.toNat ∧ ¬ d ∣ s.x0.toNat)
    (last : s.x0.toNat < (s.i.toNat + 2 * k) * (s.i.toNat + 2 * k) ∨ s.i.toNat + 2 * k ∣ s.x0.toNat) :
    ∃ i', BusyRun (k + 1) s (complete (primalityWord s.x0) { s with i := i' }) := by
  have busy : s.busy = true := congrArg Phase.busy hp
  induction k generalizing s with
  | zero =>
    rcases engineStep_tdLoop_cases h hp with e | ⟨hle, hdvd, -⟩
    · exact ⟨s.i, .of_step busy ((step_of_no_turn turns).trans e)⟩
    · exact (last.elim (Nat.not_lt.2 hle) hdvd).elim
  | succ k ih =>
    obtain ⟨hle, hdvd⟩ := goesOn s.i.toNat (le_refl _) (by omega)
    obtain ⟨-, -, -, i3, -⟩ := h hp
    rcases stepTdLoop_cases s (by omega) with ⟨bound, -⟩ | ⟨-, dvd, -⟩ | ⟨-, -, e⟩
    · exact absurd hle (Nat.not_le.2 bound)
    · exact absurd dvd hdvd
    · have next := nextDivisor_toNat_of_square_le hle
      have shift : (nextDivisor s.i).toNat + 2 * k = s.i.toNat + 2 * (k + 1) := by omega
      have goesOn' (d : Nat) (hd : (nextDivisor s.i).toNat ≤ d) (hk : d + 2 ≤ (nextDivisor s.i).toNat + 2 * k) :=
        goesOn d (by omega) (by omega)
      obtain ⟨i', rest⟩ := ih (divisorInv_nextDivisor h hp hle hdvd) hp turns goesOn' (shift ▸ last) busy
      exact ⟨i', .head busy ((step_of_no_turn turns).trans ((engineStep_of_tdLoop hp).trans e)) rest⟩

/-- A completion that a countdown of one step foretells gives the countdown's result. -/
theorem eq_of_resultWithin_one {s : State} {v c : Word} (h : s.ResultWithin v 1)
    (e : engineStep s = .next (complete c s)) : c = v := by
  obtain ⟨t, ht, -, -, result⟩ := h
  cases e.symm.trans ht
  exact result

/-- The TD_START step answers right at once, where R99 counts one step, or sets up the trial division of an odd number
from 3 up (R92, R97). -/
theorem engineStep_tdStart_cases {s : State} (hp : s.phase = .tdStart) :
    (isprimeSteps s.x0.toNat = 1 ∧ engineStep s = .next (complete (primalityWord s.x0) s)) ∨
    (3 ≤ s.x0.toNat ∧ s.x0.toNat % 2 = 1 ∧ engineStep s = .next { s with i := 3#64, phase := .tdLoop }) := by
  have engine := engineStep_of_tdStart hp
  have answers {c : Word} (one : isprimeSteps s.x0.toNat = 1) (e : stepTdStart s = .next (complete c s)) :
      engineStep s = .next (complete (primalityWord s.x0) s) := by
    have right : c = primalityWord s.x0 := eq_of_resultWithin_one (one ▸ resultWithin_of_tdStart hp) (engine.trans e)
    rw [← right]
    exact engine.trans e
  rcases stepTdStart_cases s with ⟨small, e⟩ | ⟨two, e⟩ | ⟨-, even, e⟩ | ⟨n3, odd, e⟩
  · have one : isprimeSteps s.x0.toNat = 1 := if_pos (.inl small)
    exact .inl ⟨one, answers one e⟩
  · have one : isprimeSteps s.x0.toNat = 1 := if_pos (.inr (by omega))
    exact .inl ⟨one, answers one e⟩
  · have one : isprimeSteps s.x0.toNat = 1 := if_pos (.inr even)
    exact .inl ⟨one, answers one e⟩
  · exact .inr ⟨n3, odd, engine.trans e⟩

/-- From TD_START with no turn to come ISPRIME takes exactly the steps of R99 and ends with 1 iff `n` is prime (R97); only
RES, DONE, PHASE and I differ from before. -/
theorem busyRun_of_tdStart {s : State} (hp : s.phase = .tdStart) (turns : s.pending = []) :
    ∃ i', BusyRun (isprimeSteps s.x0.toNat) s (complete (primalityWord s.x0) { s with i := i' }) := by
  have busy : s.busy = true := congrArg Phase.busy hp
  have engine := step_of_no_turn turns
  rcases engineStep_tdStart_cases hp with ⟨one, e⟩ | ⟨n3, odd, e⟩
  · rw [one]
    exact ⟨s.i, .of_step busy (engine.trans e)⟩
  · obtain ⟨k, count, last⟩ := isprimeSteps_of_odd n3 odd
    have goesOn (d : Nat) := candidate_before_last (d := d) odd n3 count
    obtain ⟨i', loop⟩ := busyRun_of_tdLoop k (divisorInv_enter n3 odd) rfl turns goesOn last
    rw [count]
    exact ⟨i', .head busy (engine.trans e) loop⟩

/-- Settles O46: the run of exactly that many steps ends in a completion. -/
theorem isprimeStepCount : Obligations.IsprimeStepCount := by
  intro s hp turns
  obtain ⟨i', reach, before⟩ := busyRun_of_tdStart hp turns
  exact ⟨before, _, reach, rfl, rfl⟩

/-- Settles O45: the command is accepted, and the run from TD_START completes with the answer. -/
theorem isprimeDecidesPrimality : Obligations.IsprimeDecidesPrimality := by
  intro s idle turns
  have issued := step_isprime_line_of_idle idle turns
  obtain ⟨i', reach, -⟩ := busyRun_of_tdStart (s := accept .isprime (s.withTurns [])) rfl rfl
  refine ⟨_, _, (run_succ _ issued).trans reach, ?_⟩
  simp [complete, accept, State.withTurns, primalityWord, idle]

end Sys2Proof.Machine
end

section
/-! PROOFS. The invariant of the power loop (41_modexp.md R115): every transition keeps it. -/

namespace Sys2Proof.Machine

/-- Outside ME_LOOP the invariant asks nothing. -/
theorem powerInv_of_phase_ne {s : State} (h : s.phase ≠ .meLoop) : s.PowerInv := fun hp => absurd hp h

/-- The schedule plays no part in the invariant. -/
theorem powerInv_withTurns (s : State) (ts : List Turn) : (s.withTurns ts).PowerInv ↔ s.PowerInv := Iff.rfl

/-- A command write starts no loop: it accepts the command or faults (R78). -/
theorem command_phase_ne_meLoop (v : Word) (s : State) : (command v s).phase ≠ .meLoop := by
  rw [command_phase]
  split_ifs <;> exact nofun

/-- A host transaction keeps the invariant: it reaches no element of a running loop and starts none. -/
theorem powerInv_host {w : TWord} {s t : State} (h : s.PowerInv) (he : exec (decodeT w) s = .next t) : t.PowerInv := by
  cases hb : s.busy with
  | false =>
    have notLoop : s.phase ≠ .meLoop := fun hp => absurd (congrArg Phase.busy hp) (Bool.eq_false_iff.1 hb)
    rcases exec_decodeT_control he with ⟨v, -, -, rfl⟩ | ⟨same, -⟩
    · exact powerInv_of_phase_ne (command_phase_ne_meLoop v s)
    · exact powerInv_of_phase_ne (same ▸ notLoop)
  | true =>
    rcases exec_decodeT_cases he with ⟨loc, v, -, rfl⟩ | ⟨loc, v, -, rfl⟩
    · rw [memWrite, writeGate_busy hb]; exact h
    · exact h

/-- An engine step ends in ME_LOOP only where it sets up the power loop or goes on in it (R39). -/
theorem engineStep_to_meLoop {s t : State} (h : engineStep s = .next t) (ht : t.phase = .meLoop) :
    s.phase = .meStart ∨ s.phase = .meLoop := by
  cases hp : s.phase with
  | meStart => exact .inl rfl
  | meLoop => exact .inr rfl
  | idle | faulted =>
    have same := engineStep_phase_of_not_busy h (congrArg Phase.busy hp)
    rw [same, hp] at ht
    cases ht
  | tdStart => rw [engineStep_phase_of_tdStart h hp] at ht; split_ifs at ht
  | tdLoop => rw [engineStep_phase_of_tdLoop h hp] at ht; split_ifs at ht

/-- An engine step keeps the invariant: it sets up the power loop, or makes one round of it, or does not end in it. -/
theorem powerInv_engineStep {s t : State} (h : s.PowerInv) (he : engineStep s = .next t) : t.PowerInv := by
  intro ht
  rcases engineStep_to_meLoop he ht with hp | hp
  · rw [engineStep_of_meStart hp] at he
    rcases stepMeStart_cases s with ⟨-, e⟩ | ⟨-, e⟩ | ⟨m2, hsq, e⟩ <;> cases e.symm.trans he
    · cases ht
    · cases ht
    · exact powerInv_enter m2 hsq ht
  · obtain ⟨m2, -⟩ := h hp
    rw [engineStep_of_meLoop hp] at he
    rcases stepMeLoop_cases s (by omega) with ⟨-, e⟩ | ⟨-, acc', sq', hacc, hsq, e⟩ <;> cases e.symm.trans he
    · cases ht
    · exact powerInv_meLoop_step h hp hacc hsq ht

/-- Settles O43: reset is no loop; a step keeps the invariant whichever of the three kinds it is. -/
theorem powerInvariantKept : Obligations.PowerInvariantKept := by
  refine ⟨powerInv_of_phase_ne nofun, fun s t h hs => ?_⟩
  rcases step_cases hs with ⟨u, hu, he⟩ | ⟨w, u, hu, he⟩ | ⟨rest, -, rfl⟩
  · obtain ⟨ts, rfl⟩ := engineNext_withTurns hu
    exact powerInv_engineStep ((powerInv_withTurns s ts).2 h) he
  · obtain ⟨ts, rfl⟩ := hostNext_withTurns hu
    exact powerInv_host ((powerInv_withTurns s ts).2 h) he
  · exact powerInv_of_phase_ne nofun

end Sys2Proof.Machine
end

section
/-! PROOFS. MODEXP step by step (41_modexp.md): its acceptance (R111) and its two engine steps (R112, R113). -/

namespace Sys2Proof.Machine

/-- Settles O17: the gate is open while IDLE, and both spellings are the acceptance of MODEXP. -/
theorem modexpAcceptedWhenIdle : Obligations.ModexpAcceptedWhenIdle := by
  intro s idle
  refine ⟨?_, ?_⟩
  · rw [exec_modexp, issue, writeGate_idle idle]
    rfl
  · rw [exec_wr_of_idle .cmd _ idle]
    exact congrArg _ (command_modexp s)

/-- A word is the number it stands for. -/
theorem eq_ofNat_of_toNat_eq {w : Word} {n : Nat} (h : w.toNat = n) : w = BitVec.ofNat 64 n := by
  rw [← h, BitVec.ofNat_toNat, BitVec.setWidth_eq]

/-- Settles O21: the three cases of ME_START exclude one another. -/
theorem modexpStartStep : Obligations.ModexpStartStep := by
  intro s u hu hp
  obtain ⟨ts, rfl⟩ := engineNext_withTurns hu
  have engine : step s = stepMeStart (s.withTurns ts) := (step_engine hu).trans (engineStep_of_meStart hp)
  have branches := stepMeStart_cases (s.withTurns ts)
  simp only [← engine, withTurns_x0, withTurns_x1, withTurns_x2] at branches
  rcases branches with ⟨hm, e⟩ | ⟨hm, e⟩ | ⟨hm, hsq, e⟩ <;> rw [e]
  · exact ⟨fun _ => rfl, by omega, by omega⟩
  · exact ⟨by omega, fun _ => rfl, by omega⟩
  · rw [← eq_ofNat_of_toNat_eq hsq]
    exact ⟨by omega, by omega, fun _ => rfl⟩

/-- One round of square and multiply, each new value a word for its integer (R113). -/
theorem stepMeLoop_round {s : State} (hm : s.x2.toNat ≠ 0) (he : s.e.toNat ≠ 0) :
    stepMeLoop s = .next { s with
      acc := if s.e.toNat % 2 = 1 then BitVec.ofNat 64 (s.acc.toNat * s.sq.toNat % s.x2.toNat) else s.acc,
      sq := BitVec.ofNat 64 (s.sq.toNat * s.sq.toNat % s.x2.toNat),
      e := BitVec.ofNat 64 (s.e.toNat / 2) } := by
  rcases stepMeLoop_cases s hm with ⟨zero, -⟩ | ⟨-, acc', sq', hacc, hsq, e⟩
  · exact absurd zero he
  · rw [e, ← eq_ofNat_of_toNat_eq hsq, ← eq_ofNat_of_toNat_eq (shiftRight1_toNat s.e)]
    by_cases odd : s.e.toNat % 2 = 1
    · rw [if_pos odd] at hacc ⊢
      rw [← eq_ofNat_of_toNat_eq hacc]
    · rw [if_neg odd] at hacc ⊢
      rw [BitVec.eq_of_toNat_eq hacc]

/-- Settles O22: with no exponent bit left the loop completes with ACC, else makes one round of
square and multiply. -/
theorem modexpLoopStep : Obligations.ModexpLoopStep := by
  intro s u hu hp m2
  obtain ⟨ts, rfl⟩ := engineNext_withTurns hu
  have engine : step s = stepMeLoop (s.withTurns ts) := (step_engine hu).trans (engineStep_of_meLoop hp)
  have hm : s.x2.toNat ≠ 0 := Nat.ne_zero_of_lt m2
  rcases stepMeLoop_cases (s.withTurns ts) hm with ⟨he, e⟩ | ⟨he, -⟩
  · exact ⟨fun _ => engine.trans e, fun ne => absurd he ne⟩
  · exact ⟨fun zero => absurd zero he, fun _ => engine.trans (stepMeLoop_round hm he)⟩

end Sys2Proof.Machine
end

section
/-! PROOFS. The whole run of MODEXP (41_modexp.md R116, R119): its exact length, with BUSY before each step, and the
state it ends in. -/

namespace Sys2Proof.Machine

/-- A loop step consumes one bit of the exponent (R113). -/
theorem size_eq_size_half_succ {n : Nat} (h : n ≠ 0) : Nat.size n = Nat.size (n / 2) + 1 := by
  have split : Nat.bit n.bodd (n / 2) = n := Nat.bit_bodd_div2 n
  have size := Nat.size_bit (b := n.bodd) (n := n / 2) (split.symm ▸ h)
  rwa [split] at size

/-- The power loop takes a step for each bit of the exponent and one to complete with the right answer (R116, R119). -/
theorem busyRun_of_meLoop {s : State} (h : s.PowerInv) (hp : s.phase = .meLoop) (turns : s.pending = []) :
    ∃ acc' sq' e', BusyRun (Nat.size s.e.toNat + 1) s
      (complete (powerWord s.x0 s.x1 s.x2) { s with acc := acc', sq := sq', e := e' }) := by
  have busy : s.busy = true := congrArg Phase.busy hp
  have engine := (step_of_no_turn turns).trans (engineStep_of_meLoop hp)
  obtain ⟨m2, -⟩ := h hp
  rcases stepMeLoop_cases s (by omega) with ⟨he, e⟩ | ⟨ne, acc', sq', hacc, hsq, e⟩
  · rw [← acc_eq_powerWord h hp he, he, Nat.size_zero]
    exact ⟨s.acc, s.sq, s.e, .of_step busy (engine.trans e)⟩
  · have shorter : (shiftRight1 s.e).toNat < s.e.toNat := by rw [shiftRight1_toNat]; omega
    obtain ⟨acc'', sq'', e'', rest⟩ := busyRun_of_meLoop (powerInv_meLoop_step h hp hacc hsq) hp turns
    rw [size_eq_size_half_succ ne, ← shiftRight1_toNat]
    exact ⟨acc'', sq'', e'', .head busy (engine.trans e) rest⟩
termination_by s.e.toNat

/-- From ME_START with modulus at least 1 and no turn to come MODEXP takes exactly the steps of R119 and ends with
`base^exp mod modulus` (R110, R116); only RES, DONE, PHASE, ACC, SQ and E differ from before. -/
theorem busyRun_of_meStart {s : State} (hp : s.phase = .meStart) (hm : s.x2 ≠ 0#64) (turns : s.pending = []) :
    ∃ acc' sq' e', BusyRun (modexpSteps s.x1.toNat s.x2.toNat) s
      (complete (powerWord s.x0 s.x1 s.x2) { s with acc := acc', sq := sq', e := e' }) := by
  have busy : s.busy = true := congrArg Phase.busy hp
  have engine := (step_of_no_turn turns).trans (engineStep_of_meStart hp)
  rcases stepMeStart_cases s with ⟨zero, -⟩ | ⟨one, e⟩ | ⟨m2, hsq, e⟩
  · exact absurd ((toNat_eq_zero_iff _).2 zero) hm
  · rw [modexpSteps, if_pos (by omega), powerWord, one, Nat.mod_one]
    exact ⟨s.acc, s.sq, s.e, .of_step busy (engine.trans e)⟩
  · obtain ⟨acc', sq', e', loop⟩ := busyRun_of_meLoop (powerInv_enter m2 hsq) rfl turns
    rw [modexpSteps, if_neg (by omega), Nat.add_comm 1]
    exact ⟨acc', sq', e', .head busy (engine.trans e) loop⟩

/-- Modulus 0 faults in the first step, the only one that R119 counts (R112, R131). -/
theorem busyRun_of_modZero {s : State} (hp : s.phase = .meStart) (hm : s.x2.toNat = 0) (turns : s.pending = []) :
    BusyRun (modexpSteps s.x1.toNat s.x2.toNat) s (raise .modZero s) := by
  rw [modexpSteps, if_pos (by omega)]
  have engine := (step_of_no_turn turns).trans (engineStep_of_meStart hp)
  rcases stepMeStart_cases s with ⟨-, e⟩ | ⟨one, -⟩ | ⟨m2, -⟩
  · exact .of_step (congrArg Phase.busy hp) (engine.trans e)
  · omega
  · omega

/-- Settles O48: the run of exactly that many steps ends in the fault of modulus 0 or in a completion. -/
theorem modexpStepCount : Obligations.ModexpStepCount := by
  intro s hp turns
  by_cases hm : s.x2.toNat = 0
  · obtain ⟨reach, before⟩ := busyRun_of_modZero hp hm turns
    exact ⟨before, _, reach, by rw [if_pos hm, raise_phase]⟩
  · obtain ⟨acc', sq', e', reach, before⟩ := busyRun_of_meStart hp (mt (toNat_eq_zero_iff _).1 hm) turns
    exact ⟨before, _, reach, by rw [if_neg hm]; exact ⟨rfl, rfl⟩⟩

/-- Settles O47: the command is accepted, and the run from ME_START completes with the power. -/
theorem modexpComputesPower : Obligations.ModexpComputesPower := by
  intro s idle hm turns
  have issued := step_modexp_line_of_idle idle turns
  obtain ⟨acc', sq', e', reach, -⟩ := busyRun_of_meStart (s := accept .modexp (s.withTurns [])) rfl hm rfl
  refine ⟨_, _, (run_succ _ issued).trans reach, ?_⟩
  simp [complete, accept, State.withTurns, powerWord, idle]

end Sys2Proof.Machine
end

section
/-! PROOFS. The faults (60_exceptions.md): the only two entries into FAULTED (R131, R132, R135), and that reset alone
leads out of it (R136). -/

namespace Sys2Proof.Machine

/-! ### Entering FAULTED -/

/-- The one engine step that enters FAULTED is the first step of MODEXP with modulus 0 (R131, R134). -/
theorem engineStep_to_faulted {s t : State} (h : engineStep s = .next t) (notFaulted : s.phase ≠ .faulted)
    (faulted : t.phase = .faulted) : s.phase = .meStart ∧ s.x2 = 0#64 ∧ t = raise .modZero s := by
  rcases engineStep_control h with ⟨-, rfl⟩ | ⟨-, v, rfl⟩ | ⟨-, start, e⟩ | ⟨-, goesOn, -⟩
  · exact absurd faulted notFaulted
  · cases faulted
  · rw [engineStep_phase_of_meStart h start] at faulted
    by_cases zero : s.x2.toNat = 0
    · exact ⟨start, (toNat_eq_zero_iff _).2 zero, e⟩
    · rw [if_neg zero] at faulted
      split_ifs at faulted
  · exact absurd faulted (phase_of_busy goesOn).2

/-- The one host transaction that enters FAULTED is the write of an illegal word to CMD while IDLE (R132, R134). -/
theorem host_to_faulted {w : TWord} {s t : State} (h : exec (decodeT w) s = .next t) (notFaulted : s.phase ≠ .faulted)
    (faulted : t.phase = .faulted) :
    s.phase = .idle ∧ t = raise .illegalCmd s ∧ ∃ v, decodeT w = .wr .cmd v ∧ v ≠ isprimeWord ∧ v ≠ modexpWord := by
  rcases exec_decodeT_control h with ⟨v, idle, hw, rfl⟩ | ⟨same, -⟩
  · rcases command_cases v s with ⟨c, -, e⟩ | ⟨h1, h2, e⟩
    · rw [e] at faulted
      exact absurd faulted (phase_of_busy (accept_busy c s)).2
    · exact ⟨idle, e, v, hw, h1, h2⟩
  · exact absurd (same.symm.trans faulted) notFaulted

/-- Settles O36: an engine step, a host transaction and reset in turn; each of the two entries is a `raise`, which writes
PHASE and CAUSE alone. -/
theorem faultsArePrecise : Obligations.FaultsArePrecise := by
  intro s t h notFaulted faulted
  rcases step_cases h with ⟨u, hu, he⟩ | ⟨w, u, hu, he⟩ | ⟨rest, -, rfl⟩
  · obtain ⟨ts, rfl⟩ := engineNext_withTurns hu
    obtain ⟨start, zero, rfl⟩ := engineStep_to_faulted he notFaulted faulted
    exact ⟨rfl, .inr ⟨start, zero, rfl, _, hu⟩⟩
  · obtain ⟨ts, rfl⟩ := hostNext_withTurns hu
    obtain ⟨idle, rfl, v, hw, h1, h2⟩ := host_to_faulted he notFaulted faulted
    exact ⟨rfl, .inl ⟨idle, rfl, w, _, v, hu, hw, h1, h2⟩⟩
  · cases faulted

/-! ### Leaving FAULTED -/

/-- The schedule is no element of the unit. -/
@[simp] theorem unit_withTurns (s : State) (ts : List Turn) : (s.withTurns ts).unit = s.unit := rfl

/-- An answer is no element of the unit (R51). -/
@[simp] theorem unit_answer (v : Word) (s : State) : (answer v s).unit = s.unit := rfl

theorem engineStep_of_faulted {s : State} (h : s.phase = .faulted) : engineStep s = .next s := by rw [engineStep, h]

/-- In FAULTED an instruction at most answers a read (R136). -/
theorem exec_unit_of_faulted {i : Instr} {s t : State} (h : exec i s = .next t) (faulted : s.phase = .faulted) :
    t.unit = s.unit := by
  rcases exec_cases h with ⟨loc, v, -, rfl⟩ | ⟨-, -, rfl⟩ | ⟨busy, -⟩ | ⟨idle, -⟩
  · exact unit_answer _ s
  · rfl
  · exact absurd faulted (phase_of_busy busy).2
  · rw [idle] at faulted
    cases faulted

/-- In FAULTED every step but reset answers and leaves the unit as it is (R136). -/
theorem step_unit_of_faulted {s : State} (faulted : s.phase = .faulted) (hr : ¬ ResetNext s) :
    ∃ t, step s = .next t ∧ t.unit = s.unit := by
  rcases next_turn_cases s with ⟨u, hu⟩ | ⟨w, u, hu⟩ | reset
  · obtain ⟨ts, rfl⟩ := engineNext_withTurns hu
    exact ⟨_, (step_engine hu).trans (engineStep_of_faulted faulted), unit_withTurns s ts⟩
  · obtain ⟨ts, rfl⟩ := hostNext_withTurns hu
    obtain ⟨t, ht⟩ := exec_answers (decodeT w) (s.withTurns ts)
    exact ⟨t, (step_host hu).trans ht, (exec_unit_of_faulted ht faulted).trans (unit_withTurns s ts)⟩
  · exact absurd reset hr

/-- Settles O37: every other step keeps the unit, a read answers in every PHASE, and reset makes the reset state. -/
theorem faultedLeftOnlyByReset : Obligations.FaultedLeftOnlyByReset := fun s faulted =>
  ⟨step_unit_of_faulted faulted, fun loc d => exec_rd loc d s, fun ⟨_, hr⟩ => ⟨_, step_reset hr, rfl⟩⟩

/-! ### MODEXP with modulus 0 -/

/-- Modulus 0 faults in ME_START (R112, R131). -/
theorem stepMeStart_of_modZero {s : State} (h : s.x2 = 0#64) : stepMeStart s = .next (raise .modZero s) := by
  have zero : s.x2.toNat = 0 := (toNat_eq_zero_iff _).1 h
  rcases stepMeStart_cases s with ⟨-, e⟩ | ⟨one, -⟩ | ⟨two, -⟩
  · exact e
  · omega
  · omega

/-- Settles O23: the command is accepted whatever its operands, and the engine's first step is the fault. -/
theorem modulusZeroFaults : Obligations.ModulusZeroFaults := by
  intro s rest idle zero turns
  have issued := step_modexp_line_of_idle idle turns
  have fault : step (accept .modexp (s.withTurns (.engine :: rest))) =
      .next (raise .modZero (accept .modexp (s.withTurns rest))) :=
    (step_engine (.inr ⟨rest, rfl, rfl⟩)).trans ((engineStep_of_meStart rfl).trans (stepMeStart_of_modZero zero))
  exact (run_succ 1 issued).trans (run_succ 0 fault)

end Sys2Proof.Machine
end

section
/-! PROOFS. Reset (70_reset_and_hazards.md R150): it sets every element, and no other transition clears WDROP or CAUSE or
leads out of FAULTED. -/

namespace Sys2Proof.Machine

theorem unitFault_code_ne_zero (f : UnitFault) : f.code ≠ 0#2 := by
  cases f <;> decide

/-- An engine step keeps CAUSE or takes a fault (R39, R134). -/
theorem engineStep_cause {s t : State} (h : engineStep s = .next t) :
    t.cause = s.cause ∨ ∃ f : UnitFault, t.cause = f.code := by
  rcases engineStep_control h with ⟨-, rfl⟩ | ⟨-, v, rfl⟩ | ⟨-, -, rfl⟩ | ⟨-, -, -, kept⟩
  · exact .inl rfl
  · exact .inl (complete_cause v s)
  · exact .inr ⟨.modZero, raise_cause _ s⟩
  · exact .inl kept

/-- A host transaction keeps CAUSE or takes a fault (R78, R134). -/
theorem host_cause {w : TWord} {s t : State} (h : exec (decodeT w) s = .next t) :
    t.cause = s.cause ∨ ∃ f : UnitFault, t.cause = f.code := by
  rcases exec_decodeT_control h with ⟨v, -, -, rfl⟩ | ⟨-, -, kept⟩
  · rcases command_cases v s with ⟨c, -, e⟩ | ⟨-, -, e⟩ <;> rw [e]
    · exact .inl (accept_cause c s)
    · exact .inr ⟨.illegalCmd, raise_cause _ s⟩
  · exact .inl kept

/-- A step that is no reset keeps CAUSE or takes a fault. -/
theorem step_cause {s t : State} (h : step s = .next t) (hr : ¬ ResetNext s) :
    t.cause = s.cause ∨ ∃ f : UnitFault, t.cause = f.code := by
  rcases step_cases h with ⟨u, hu, he⟩ | ⟨w, u, hu, he⟩ | ⟨rest, hrest, -⟩
  · obtain ⟨ts, rfl⟩ := engineNext_withTurns hu
    exact engineStep_cause (s := s.withTurns ts) he
  · obtain ⟨ts, rfl⟩ := hostNext_withTurns hu
    exact host_cause (s := s.withTurns ts) he
  · exact absurd ⟨rest, hrest⟩ hr

/-- Only reset makes CAUSE zero: no fault has code 0 (R130, R150). -/
theorem step_cause_ne_zero {s t : State} (h : step s = .next t) (hr : ¬ ResetNext s) (hc : s.cause ≠ 0#2) :
    t.cause ≠ 0#2 := by
  rcases step_cause h hr with kept | ⟨f, raised⟩
  · rwa [kept]
  · rw [raised]
    exact unitFault_code_ne_zero f

/-- Only reset clears WDROP: a write while BUSY sets it, and every other step keeps it (R32, R150). -/
theorem step_wdrop_of_set {s t : State} (h : step s = .next t) (hr : ¬ ResetNext s) (dropped : s.wdrop = true) :
    t.wdrop = true := by
  obtain ⟨-, busyWrite, kept⟩ := wdropSticky s t h
  by_cases hw : ∃ w u loc v, HostNext s w u ∧ s.busy = true ∧ decodeT w = .wr loc v
  · obtain ⟨w, u, loc, v, hu, busy, write⟩ := hw
    rw [busyWrite w u loc v hu busy write]
  · exact (kept hr fun w u loc v hu busy write => hw ⟨w, u, loc, v, hu, busy, write⟩).trans dropped

/-- Only reset leads out of FAULTED (R136, R150). -/
theorem step_phase_of_faulted {s t : State} (h : step s = .next t) (hr : ¬ ResetNext s) (faulted : s.phase = .faulted) :
    t.phase = .faulted := by
  obtain ⟨t', ht', sameUnit⟩ := step_unit_of_faulted faulted hr
  cases ht'.symm.trans h
  exact (congrArg State.phase sameUnit).trans faulted

/-- Settles O34: what reset leaves, and for every other step WDROP, CAUSE and PHASE in turn. -/
theorem resetFromAnyState : Obligations.ResetFromAnyState :=
  ⟨fun _ ⟨_, hr⟩ => ⟨_, step_reset hr, rfl⟩, fun _ _ hr h =>
    ⟨step_wdrop_of_set h hr, step_cause_ne_zero h hr, step_phase_of_faulted h hr⟩⟩

end Sys2Proof.Machine
end

section
/-! PROOFS. The decoder and the encoder are inverses of one another, at both levels and for words numbered as
spec/opcode_table.json numbers them (30_encoding.md R70 to R77); what the words written out in the spec stand for. -/

namespace Sys2Proof.Machine

/-! ### Words -/

/-- Settles O5: each command's word decodes to it, and a T word decodes to the transaction of its fields. -/
theorem decodeInvertsEncode : Obligations.DecodeInvertsEncode := by
  intro i
  cases i with
  | isprime => exact congrArg (Except.map Command.instr) decodeC_isprime
  | modexp => exact congrArg (Except.map Command.instr) decodeC_modexp
  | wr loc data => exact congrArg Except.ok (decodeT_tWord true loc data)
  | rd loc data => exact congrArg Except.ok (decodeT_tWord false loc data)

/-- A T word is made of its three fields (R71). -/
theorem tWord_fields (w : TWord) : tWord (tWe w) (Loc.ofIndex (tIdx w)) (tData w) = w := by
  have we : BitVec.ofBool (tWe w) = w.extractLsb' 67 1 := by
    ext k hk
    obtain rfl : k = 0 := by omega
    simp [tWe]
  rw [tWord, Loc.index_ofIndex, we, tIdx, tData]
  calc w.extractLsb' 67 1 ++ w.extractLsb' 64 3 ++ w.extractLsb' 0 64
      = w.extractLsb' 64 4 ++ w.extractLsb' 0 64 :=
        congrArg (· ++ w.extractLsb' 0 64) (BitVec.extractLsb'_append_extractLsb'_eq_extractLsb' rfl)
    _ = w.extractLsb' 0 68 := BitVec.extractLsb'_append_extractLsb'_eq_extractLsb' rfl
    _ = w := BitVec.extractLsb'_eq_self

theorem encode_decodeT (w : TWord) : encode (decodeT w) = .t w := by
  rw [decodeT]
  split
  next write => rw [encode, ← write, tWord_fields]
  next read => rw [encode, ← Bool.eq_false_iff.2 read, tWord_fields]

/-- A word that decodes to a command is that command's own word (R73). -/
theorem encode_of_decodeC {w : Word} {c : Command} (h : decodeC w = .ok c) : encode c.instr = .c w := by
  cases c with
  | isprime => rw [(decodeC_eq_isprime_iff w).1 h]; rfl
  | modexp => rw [(decodeC_eq_modexp_iff w).1 h]; rfl

/-- What level C reads is the instruction of a command. -/
theorem decode_c_eq_ok {w : Word} {i : Instr} (h : decode (.c w) = .ok i) : ∃ c, decodeC w = .ok c ∧ i = c.instr := by
  rw [decode] at h
  cases hc : decodeC w with
  | error e => rw [hc] at h; cases h
  | ok c => rw [hc] at h; cases h; exact ⟨c, rfl, rfl⟩

/-- Settles O6: a word of either format is the encoding of what it decodes to. -/
theorem encodeInvertsDecode : Obligations.EncodeInvertsDecode := by
  intro f i h
  cases f with
  | c w =>
    obtain ⟨c, hc, rfl⟩ := decode_c_eq_ok h
    exact encode_of_decodeC hc
  | t w =>
    cases h
    exact encode_decodeT w

/-! ### Words as numbers -/

/-- A transaction word as a number, at either length the decoder takes (R77; log 16). -/
theorem decodeTableWord_toNat {w : TWord} {i : Instr} (h : decodeT w = i) :
    decodeTableWord 68 w.toNat = some i ∧ decodeTableWord 72 w.toNat = some i := by
  simp [decodeTableWord, decodeBits, decode, w.isLt, h]

/-- Settles O7: both commands by evaluation, and both transactions as the number of a T word. -/
theorem tableWordsDecode : Obligations.TableWordsDecode := by
  intro i
  cases i with
  | isprime | modexp => exact ⟨rfl, rfl⟩
  | wr loc data => simpa [Instr.row, encode, Encoded.toNat] using decodeTableWord_toNat (decodeT_tWord true loc data)
  | rd loc data => simpa [Instr.row, encode, Encoded.toNat] using decodeTableWord_toNat (decodeT_tWord false loc data)

/-- All that the decoder reads from a number: a command from 64 bits, a transaction from 68 or 72 (R77; log 16). -/
theorem decodeTableWord_cases {nbits w : Nat} {i : Instr} (h : decodeTableWord nbits w = some i) :
    (nbits = 64 ∧ w < 2 ^ 64 ∧ decode (.c (BitVec.ofNat 64 w)) = .ok i) ∨
    ((nbits = 68 ∨ nbits = 72) ∧ w < 2 ^ 68 ∧ decodeT (BitVec.ofNat 68 w) = i) := by
  have read : decodeBits nbits w = .ok i := by
    rw [decodeTableWord] at h
    split at h <;> cases h
    assumption
  rw [decodeBits.eq_def] at read
  split at read
  next =>
    split at read
    next fits => exact .inl ⟨rfl, fits, read⟩
    next => cases read
  next =>
    split at read
    next fits => cases read; exact .inr ⟨.inl rfl, fits, rfl⟩
    next => cases read
  next =>
    split at read
    next fits => cases read; exact .inr ⟨.inr rfl, fits, rfl⟩
    next => cases read
  next => cases read

/-! ### The step of a word -/

/-- A write to CMD of a word that decodes to a command is that command's issue (R80). -/
theorem exec_wr_cmd_of_decodeC {v : Word} {c : Command} (h : decodeC v = .ok c) (s : State) :
    exec (.wr .cmd v) s = exec c.instr s := by
  cases c with
  | isprime => rw [(decodeC_eq_isprime_iff v).1 h, exec_wr, memWrite_cmd_isprime]; rfl
  | modexp => rw [(decodeC_eq_modexp_iff v).1 h, exec_wr, memWrite_cmd_modexp]; rfl

/-- The turn that presents a number runs the instruction the decoder reads from it (log 5). -/
theorem tableTurn_of_decodeTableWord {nbits w : Nat} {i : Instr} (h : decodeTableWord nbits w = some i) :
    ∃ t, tableTurn nbits w = some (.host t) ∧ ∀ s, exec (decodeT t) s = exec i s := by
  rcases decodeTableWord_cases h with ⟨rfl, fits, read⟩ | ⟨rfl | rfl, fits, rfl⟩
  · obtain ⟨c, hc, rfl⟩ := decode_c_eq_ok read
    refine ⟨_, tableTurn_command fits, fun s => ?_⟩
    rw [decodeT_tWord]
    exact exec_wr_cmd_of_decodeC hc s
  · exact ⟨_, (tableTurn_transaction fits).1, fun _ => rfl⟩
  · exact ⟨_, (tableTurn_transaction fits).2, fun _ => rfl⟩

/-- Settles O9: the word placed is the next turn, and its instruction acts on the state without it. -/
theorem fetchedWordRunsNext : Obligations.FetchedWordRunsNext := by
  intro s nbits w i h
  obtain ⟨t, turn, runs⟩ := tableTurn_of_decodeTableWord h
  have next : HostNext (s.withFetchWord nbits w) t s := ⟨s.pending, by rw [withFetchWord_pending, turn]; rfl, rfl⟩
  rw [step_host next, runs]

/-- Settles O8: the turn is the host's, and its word decodes to one instruction. -/
theorem stepRunsDecodedInstruction : Obligations.StepRunsDecodedInstruction := by
  intro s w rest i turn h
  cases h
  exact step_host ⟨rest, turn, rfl⟩

/-- Settles O10: each command's word decodes to it. -/
theorem commandsAreTheirWrites : Obligations.CommandsAreTheirWrites := fun s =>
  ⟨(exec_wr_cmd_of_decodeC decodeC_isprime s).symm, (exec_wr_cmd_of_decodeC decodeC_modexp s).symm, rfl, rfl⟩

/-- Settles O3: each listed word is the encoder's for the line beside it, so it decodes back; 0x11 is no command's word. -/
theorem listedWordsDecode : Obligations.ListedWordsDecode :=
  ⟨decodeInvertsEncode (.wr .op0 3#64), decodeInvertsEncode (.wr .op1 5#64), decodeInvertsEncode (.wr .op2 497#64),
    decodeInvertsEncode (.wr .cmd 2#64), decodeInvertsEncode (.rd .op2 0#64), decodeInvertsEncode (.rd .status 0#64),
    decodeInvertsEncode (.rd .res 0#64), decodeInvertsEncode (.rd .cause 0#64), decodeInvertsEncode .isprime,
    decodeInvertsEncode .modexp,
    congrArg (Except.map Command.instr) (decodeC_illegal (w := 0x11#64) (by decide) (by decide))⟩

end Sys2Proof.Machine
end

section
/-! PROOFS. Who may change which element: the frame of the four instructions (20_memory.md R51 to R57), and which transitions
write the operands, RES, CAUSE and the hidden registers (10_state.md R21 to R23, R34, R35). -/

namespace Sys2Proof.Machine

/-- Settles O18: what an instruction does is a read's answer, nothing while FAULTED, WDROP while BUSY, and while IDLE one of
three operand writes, an acceptance, a refusal or nothing; each leaves all else as it is. -/
theorem instructionFrame : Obligations.InstructionFrame := by
  intro i s t h
  rcases exec_cases h with ⟨loc, v, read, rfl⟩ | ⟨-, -, rfl⟩ | ⟨busy, write, rfl⟩ | ⟨idle, ⟨v, hi, rfl⟩ | ⟨v, hi, rfl⟩ |
    ⟨v, hi, rfl⟩ | ⟨c, hi, rfl⟩ | ⟨v, hi, -, -, rfl⟩ | rfl⟩ <;> refine ⟨rfl, rfl, rfl, rfl, rfl, rfl, ?_⟩
  · exact ⟨.inl rfl, .inl rfl, .inl rfl, .inl rfl, .inl ⟨rfl, rfl, rfl⟩, .inr ⟨loc, v, read⟩⟩
  · exact ⟨.inl rfl, .inl rfl, .inl rfl, .inl rfl, .inl ⟨rfl, rfl, rfl⟩, .inl rfl⟩
  · exact ⟨.inl rfl, .inl rfl, .inl rfl, .inr ⟨rfl, busy, write⟩, .inl ⟨rfl, rfl, rfl⟩, .inl rfl⟩
  · exact ⟨.inr ⟨idle, hi⟩, .inl rfl, .inl rfl, .inl rfl, .inl ⟨rfl, rfl, rfl⟩, .inl rfl⟩
  · exact ⟨.inl rfl, .inr ⟨idle, hi⟩, .inl rfl, .inl rfl, .inl ⟨rfl, rfl, rfl⟩, .inl rfl⟩
  · exact ⟨.inl rfl, .inl rfl, .inr ⟨idle, hi⟩, .inl rfl, .inl ⟨rfl, rfl, rfl⟩, .inl rfl⟩
  · have issued : i = .isprime ∨ i = .modexp ∨ ∃ v, i = .wr .cmd v := by
      rcases hi with rfl | ⟨v, rfl, -⟩
      · cases c <;> simp [Command.instr]
      · exact .inr (.inr ⟨v, rfl⟩)
    exact ⟨.inl rfl, .inl rfl, .inl rfl, .inl rfl, .inr ⟨idle, issued, .inl rfl⟩, .inl rfl⟩
  · exact ⟨.inl rfl, .inl rfl, .inl rfl, .inl rfl, .inr ⟨idle, .inr (.inr ⟨v, hi⟩), .inr rfl⟩, .inl rfl⟩
  · exact ⟨.inl rfl, .inl rfl, .inl rfl, .inl rfl, .inl ⟨rfl, rfl, rfl⟩, .inl rfl⟩

/-- Settles O29: the engine keeps the operands, and a host transaction is an instruction with its frame. -/
theorem operandsChangeOnlyByIdleWrite : Obligations.OperandsChangeOnlyByIdleWrite := by
  intro s t h
  rcases step_cases h with ⟨u, hu, he⟩ | ⟨w, u, hu, he⟩ | ⟨rest, hr, rfl⟩
  · obtain ⟨ts, rfl⟩ := engineNext_withTurns hu
    obtain ⟨h0, h1, h2, -⟩ := engineStep_keeps he
    exact .inr ⟨.inl h0, .inl h1, .inl h2⟩
  · obtain ⟨-, -, -, -, -, -, h0, h1, h2, -⟩ := instructionFrame _ _ _ he
    obtain ⟨ts, rfl⟩ := hostNext_withTurns hu
    exact .inr ⟨h0.imp_right fun write => ⟨w, _, hu, write⟩, h1.imp_right fun write => ⟨w, _, hu, write⟩,
      h2.imp_right fun write => ⟨w, _, hu, write⟩⟩
  · exact .inl ⟨⟨rest, hr⟩, rfl, rfl, rfl⟩

/-- What an engine step writes beside PHASE, DONE and CAUSE: RES where it completes, ACC, SQ and E in the phases of MODEXP, I
in those of ISPRIME (R22, R35). -/
theorem engineStep_writes {s t : State} (h : engineStep s = .next t) :
    (t.x3 = s.x3 ∨ s.busy = true ∧ t.phase = .idle ∧ t.done = true) ∧
    ((t.acc = s.acc ∧ t.sq = s.sq ∧ t.e = s.e) ∨ s.phase = .meStart ∨ s.phase = .meLoop) ∧
    (t.i = s.i ∨ s.phase = .tdStart ∨ s.phase = .tdLoop) := by
  rcases engineStep_cases h with ⟨-, rfl⟩ | ⟨hp, -, rfl⟩ | ⟨hp, -, rfl⟩ | ⟨hp, -, -, rfl⟩ | ⟨hp, -, -, rfl⟩ |
    ⟨hp, -, rfl⟩ | ⟨hp, -, -, rfl⟩ | ⟨hp, -, -, rfl⟩ | ⟨hp, -, rfl⟩ | ⟨hp, -, rfl⟩ | ⟨hp, -, sq', -, rfl⟩ |
    ⟨hp, -, rfl⟩ | ⟨hp, -, -, acc', sq', -, -, rfl⟩ <;> simp [State.busy, *]

/-- Settles O30: an instruction keeps RES, and an engine step that does not has completed. -/
theorem resultWrittenOnlyAtCompletion : Obligations.ResultWrittenOnlyAtCompletion := by
  intro s t h
  rcases step_cases h with ⟨u, hu, he⟩ | ⟨w, u, hu, he⟩ | ⟨rest, hr, rfl⟩
  · obtain ⟨ts, rfl⟩ := engineNext_withTurns hu
    obtain ⟨result, -⟩ := engineStep_writes he
    exact result.imp_right fun completion => .inr ⟨⟨_, hu⟩, completion⟩
  · obtain ⟨kept, -⟩ := instructionFrame _ _ _ he
    obtain ⟨ts, rfl⟩ := hostNext_withTurns hu
    exact .inl kept
  · exact .inr (.inl ⟨⟨rest, hr⟩, rfl⟩)

/-- Settles O31: the fault entry of MODEXP, the refusal of a command, and reset are the only three that write CAUSE. -/
theorem causeWrittenOnlyByFaultEntry : Obligations.CauseWrittenOnlyByFaultEntry := by
  intro s t h
  rcases step_cases h with ⟨u, hu, he⟩ | ⟨w, u, hu, he⟩ | ⟨rest, hr, rfl⟩
  · obtain ⟨ts, rfl⟩ := engineNext_withTurns hu
    rcases engineStep_control he with ⟨-, rfl⟩ | ⟨-, v, rfl⟩ | ⟨-, start, rfl⟩ | ⟨-, -, -, kept⟩
    · exact .inl rfl
    · exact .inl rfl
    · exact .inr (.inr (.inr ⟨rfl, start, rfl⟩))
    · exact .inl kept
  · obtain ⟨ts, rfl⟩ := hostNext_withTurns hu
    rcases exec_decodeT_control he with ⟨v, idle, -, rfl⟩ | ⟨-, -, kept⟩
    · rcases command_cases v (s.withTurns ts) with ⟨c, -, e⟩ | ⟨-, -, e⟩ <;> rw [e]
      · exact .inl rfl
      · exact .inr (.inr (.inl ⟨rfl, idle, rfl⟩))
    · exact .inl kept
  · exact .inr (.inl ⟨⟨rest, hr⟩, rfl⟩)

/-- Settles O32: an instruction keeps the hidden registers, and an engine step writes those of its own operation. -/
theorem hiddenRegistersWrittenOnlyByTheirOperation : Obligations.HiddenRegistersWrittenOnlyByTheirOperation := by
  intro s t h hr
  rcases step_cases h with ⟨u, hu, he⟩ | ⟨w, u, hu, he⟩ | ⟨rest, hrest, -⟩
  · obtain ⟨ts, rfl⟩ := engineNext_withTurns hu
    obtain ⟨-, power, divisor⟩ := engineStep_writes he
    exact ⟨power.imp_right fun own => ⟨⟨_, hu⟩, own⟩, divisor.imp_right fun own => ⟨⟨_, hu⟩, own⟩⟩
  · obtain ⟨-, hacc, hsq, he', hi, -⟩ := instructionFrame _ _ _ he
    obtain ⟨ts, rfl⟩ := hostNext_withTurns hu
    exact ⟨.inl ⟨hacc, hsq, he'⟩, .inl hi⟩
  · exact absurd ⟨rest, hrest⟩ hr

end Sys2Proof.Machine
end

section
/-! PROOFS. The invariant of R38 as a step lemma, the loop invariant of the trial division (40_isprime.md R96, R97), and that
under the invariant of R38 the machine comes to rest (70_reset_and_hazards.md R158). -/

namespace Sys2Proof.Machine

/-- Settles O39: PHASE is IDLE and CAUSE is 0. -/
theorem resetSatisfiesInvariant : Obligations.ResetSatisfiesInvariant := fun _ => inv_of_idle rfl rfl

/-- Settles O40: reset, a host transaction and each row of the engine's table keep the invariant. -/
theorem stepKeepsInvariant : Obligations.StepKeepsInvariant := fun _ _ => inv_step

/-- Settles O41: under the invariant the divisor and the modulus of a loop are not 0. -/
theorem stepAlwaysAnswers : Obligations.StepAlwaysAnswers := fun _ => step_answers

/-! ### The loop invariant of the trial division -/

/-- Outside TD_LOOP the invariant asks nothing. -/
theorem divisorInv_of_phase_ne {s : State} (h : s.phase ≠ .tdLoop) : s.DivisorInv := fun hp => absurd hp h

/-- The schedule plays no part in the invariant. -/
theorem divisorInv_withTurns (s : State) (ts : List Turn) : (s.withTurns ts).DivisorInv ↔ s.DivisorInv := Iff.rfl

/-- All that a host transaction can do while BUSY: WDROP is set, or a read is answered (R51, R56). -/
theorem exec_decodeT_busy_cases {w : TWord} {s t : State} (h : exec (decodeT w) s = .next t) (hb : s.busy = true) :
    t = { s with wdrop := true } ∨ ∃ loc, t = answer (memRead loc s) s := by
  rcases exec_decodeT_cases h with ⟨loc, v, -, rfl⟩ | ⟨loc, v, -, rfl⟩
  · exact .inl (writeGate_busy hb)
  · exact .inr ⟨loc, rfl⟩

/-- A host transaction keeps the invariant: it starts no loop and reaches no element of a running one. -/
theorem divisorInv_host {w : TWord} {s t : State} (h : s.DivisorInv) (he : exec (decodeT w) s = .next t) :
    t.DivisorInv := by
  by_cases hp : s.phase = .tdLoop
  · rcases exec_decodeT_busy_cases he (congrArg Phase.busy hp) with rfl | ⟨loc, rfl⟩
    · exact h
    · exact h
  · refine divisorInv_of_phase_ne ?_
    rcases exec_decodeT_control he with ⟨v, -, -, rfl⟩ | ⟨same, -⟩
    · rw [command_phase]
      split_ifs <;> exact nofun
    · rwa [same]

/-- An engine step ends in TD_LOOP only where it sets up the trial division or goes on in it (R39). -/
theorem engineStep_to_tdLoop {s t : State} (h : engineStep s = .next t) (ht : t.phase = .tdLoop) :
    s.phase = .tdStart ∨ s.phase = .tdLoop := by
  cases hp : s.phase with
  | tdStart => exact .inl rfl
  | tdLoop => exact .inr rfl
  | idle | faulted =>
    have same := engineStep_phase_of_not_busy h (congrArg Phase.busy hp)
    rw [same, hp] at ht
    cases ht
  | meStart => rw [engineStep_phase_of_meStart h hp] at ht; split_ifs at ht
  | meLoop => rw [engineStep_phase_of_meLoop h hp] at ht; split_ifs at ht

/-- An engine step keeps the invariant: it sets up the trial division, or passes one divisor, or does not end in the loop. -/
theorem divisorInv_engineStep {s t : State} (h : s.DivisorInv) (he : engineStep s = .next t) : t.DivisorInv := by
  intro ht
  rcases engineStep_to_tdLoop he ht with hp | hp
  · rcases engineStep_tdStart_cases hp with ⟨-, e⟩ | ⟨n3, odd, e⟩ <;> cases e.symm.trans he
    · cases ht
    · exact divisorInv_enter n3 odd ht
  · rcases engineStep_tdLoop_cases h hp with e | ⟨hle, hdvd, e⟩ <;> cases e.symm.trans he
    · cases ht
    · exact divisorInv_nextDivisor h hp hle hdvd ht

/-- Settles O44: reset is no loop; a step keeps the invariant whichever of the three kinds it is. -/
theorem divisorInvariantKept : Obligations.DivisorInvariantKept := by
  refine ⟨divisorInv_of_phase_ne nofun, fun s t h hs => ?_⟩
  rcases step_cases hs with ⟨u, hu, he⟩ | ⟨w, u, hu, he⟩ | ⟨rest, -, rfl⟩
  · obtain ⟨ts, rfl⟩ := engineNext_withTurns hu
    exact divisorInv_engineStep ((divisorInv_withTurns s ts).2 h) he
  · obtain ⟨ts, rfl⟩ := hostNext_withTurns hu
    exact divisorInv_host ((divisorInv_withTurns s ts).2 h) he
  · exact divisorInv_of_phase_ne nofun

/-! ### Coming to rest -/

/-- A bound on the engine steps an operation still takes, by PHASE: the divisor grows up to 2^32 + 1 (R96), the exponent
shrinks to 0 (R113). -/
def State.stepsLeft (s : State) : Nat :=
  match s.phase with
  | .idle | .faulted => 0
  | .tdStart => 2 ^ 33
  | .tdLoop => 2 ^ 32 + 2 - s.i.toNat
  | .meStart => s.x1.toNat + 2
  | .meLoop => s.e.toNat + 1

/-! What the bound is in each PHASE. -/

theorem stepsLeft_of_not_busy {s : State} (h : s.busy = false) : s.stepsLeft = 0 := by
  rcases phase_cases s.phase with hp | hp | hp
  · rw [State.stepsLeft, hp]
  · rw [State.stepsLeft, hp]
  · exact absurd hp (Bool.eq_false_iff.1 h)

theorem stepsLeft_of_tdStart {s : State} (h : s.phase = .tdStart) : s.stepsLeft = 2 ^ 33 := by rw [State.stepsLeft, h]
theorem stepsLeft_of_tdLoop {s : State} (h : s.phase = .tdLoop) : s.stepsLeft = 2 ^ 32 + 2 - s.i.toNat := by
  rw [State.stepsLeft, h]
theorem stepsLeft_of_meStart {s : State} (h : s.phase = .meStart) : s.stepsLeft = s.x1.toNat + 2 := by
  rw [State.stepsLeft, h]
theorem stepsLeft_of_meLoop {s : State} (h : s.phase = .meLoop) : s.stepsLeft = s.e.toNat + 1 := by
  rw [State.stepsLeft, h]

/-- A running operation has a step to take: its divisor is within the bound of R38. -/
theorem stepsLeft_pos {s : State} (h : s.Inv) (hb : s.busy = true) : 0 < s.stepsLeft := by
  obtain ⟨-, -, -, -, htd, -⟩ := h
  cases hp : s.phase with
  | idle => exact absurd hp (phase_of_busy hb).1
  | faulted => exact absurd hp (phase_of_busy hb).2
  | tdStart => rw [stepsLeft_of_tdStart hp]; omega
  | tdLoop =>
    obtain ⟨-, -, -, -, bound⟩ := htd hp
    rw [stepsLeft_of_tdLoop hp]
    omega
  | meStart => rw [stepsLeft_of_meStart hp]; omega
  | meLoop => rw [stepsLeft_of_meLoop hp]; omega

/-- Every engine step of a running operation brings its end nearer. -/
theorem stepsLeft_engineStep {s t : State} (h : s.Inv) (hb : s.busy = true) (he : engineStep s = .next t) :
    t.stepsLeft < s.stepsLeft := by
  have pos := stepsLeft_pos h hb
  have ends (quiet : t.busy = false) : t.stepsLeft < s.stepsLeft := by rwa [stepsLeft_of_not_busy quiet]
  rcases engineStep_cases he with ⟨quiet, -⟩ | ⟨-, -, rfl⟩ | ⟨-, -, rfl⟩ | ⟨-, -, -, rfl⟩ | ⟨hp, -, -, rfl⟩ |
    ⟨-, -, rfl⟩ | ⟨-, -, -, rfl⟩ | ⟨hp, hle, -, rfl⟩ | ⟨-, -, rfl⟩ | ⟨-, -, rfl⟩ | ⟨hp, -, sq', -, rfl⟩ |
    ⟨-, -, rfl⟩ | ⟨hp, he, -, acc', sq', -, -, rfl⟩
  · exact absurd hb (Bool.eq_false_iff.1 quiet)
  · exact ends rfl
  · exact ends rfl
  · exact ends rfl
  · rw [stepsLeft_of_tdStart hp, stepsLeft_of_tdLoop rfl]
    omega
  · exact ends rfl
  · exact ends rfl
  · have next := nextDivisor_toNat_of_square_le hle
    have below : s.i.toNat < 2 ^ 32 := divisor_lt_of_square_le s.x0.isLt hle
    rw [stepsLeft_of_tdLoop hp, stepsLeft_of_tdLoop (by exact hp), next]
    omega
  · exact ends rfl
  · exact ends rfl
  · rw [stepsLeft_of_meStart hp, stepsLeft_of_meLoop rfl]
    exact Nat.lt_succ_self _
  · exact ends rfl
  · have half := shiftRight1_toNat s.e
    rw [stepsLeft_of_meLoop hp, stepsLeft_of_meLoop (by exact hp), half]
    omega

/-- With no turn left the operation runs to its end (R158). -/
theorem reaches_quiescent {s : State} (h : s.Inv) (turns : s.pending = []) :
    ∃ t, Reaches s t ∧ t.pending = [] ∧ t.quiescent = true := by
  cases hb : s.busy with
  | false => exact ⟨s, .refl s, turns, by rw [State.quiescent, hb]; rfl⟩
  | true =>
    obtain ⟨u, hu⟩ := engineStep_answers h
    have nearer : u.stepsLeft < s.stepsLeft := stepsLeft_engineStep h hb hu
    obtain ⟨-, -, -, -, kept, -⟩ := engineStep_keeps hu
    obtain ⟨t, hut, rest⟩ := reaches_quiescent (inv_engineStep h hu) (kept.trans turns)
    exact ⟨t, .head ((step_of_no_turn turns).trans hu) hut, rest⟩
termination_by s.stepsLeft

/-- Every step takes one turn off the schedule, if there is one. -/
theorem step_pending {s t : State} (h : step s = .next t) : t.pending = s.pending.tail := by
  rcases step_cases h with ⟨u, hu, he⟩ | ⟨w, u, ⟨rest, turn, rfl⟩, he⟩ | ⟨rest, turn, rfl⟩
  · obtain ⟨-, -, -, -, kept, -⟩ := engineStep_keeps he
    rw [kept]
    rcases hu with ⟨none, rfl⟩ | ⟨rest, turn, rfl⟩
    · rw [none]; rfl
    · rw [turn]; rfl
  · obtain ⟨-, -, -, -, -, kept, -⟩ := instructionFrame _ _ _ he
    rw [kept, turn]; rfl
  · rw [turn]; rfl

/-- Under the invariant the schedule is used up. -/
theorem reaches_no_turn {s : State} (h : s.Inv) : ∃ t, Reaches s t ∧ t.Inv ∧ t.pending = [] := by
  induction hp : s.pending generalizing s with
  | nil => exact ⟨s, .refl s, h, hp⟩
  | cons turn rest ih =>
    obtain ⟨u, hu⟩ := step_answers h
    have left : u.pending = rest := by rw [step_pending hu, hp]; rfl
    obtain ⟨t, hut, ht⟩ := ih (inv_step h hu) left
    exact ⟨t, .head hu hut, ht⟩

/-- Settles O54: the schedule is used up, and then the operation that runs, if any, comes to its end. -/
theorem everyOperationEnds : Obligations.EveryOperationEnds := by
  intro s h
  obtain ⟨u, hsu, hinv, turns⟩ := reaches_no_turn h
  obtain ⟨t, hut, rest⟩ := reaches_quiescent hinv turns
  obtain ⟨k, hk⟩ := hsu.trans hut
  exact ⟨k, t, hk, rest⟩

end Sys2Proof.Machine
end

section
/-! SUPPORT. A transition as one named effect, chosen by the elements it depends on: states that agree on these take the same
effect. -/

namespace Sys2Proof.Machine

/-- What a transition other than a read does to a state, its turn already taken off the schedule. -/
inductive Effect where
  /-- nothing: a dropped write, or an engine turn in a quiescent unit (R55, R57, R159) -/
  | rest
  /-- a write to OP0, OP1 or OP2 while IDLE (R53) -/
  | operand0 (v : Word)
  | operand1 (v : Word)
  | operand2 (v : Word)
  /-- the acceptance of a command (R78) -/
  | accept (c : Command)
  /-- the entry into a fault (R134) -/
  | raise (f : UnitFault)
  /-- a write while BUSY (R56) -/
  | drop
  /-- the completion of an operation (R29) -/
  | complete (v : Word)
  /-- ISPRIME sets up its next trial division (R92, R93) -/
  | divisor (i : Word)
  /-- MODEXP sets up its next round (R112, R113) -/
  | power (acc sq e : Word)
  /-- reset (R150) -/
  | reset

/-- The effect on a state. -/
def Effect.apply : Effect → State → State
  | .rest, s => s
  | .operand0 v, s => { s with x0 := v }
  | .operand1 v, s => { s with x1 := v }
  | .operand2 v, s => { s with x2 := v }
  | .accept c, s => Machine.accept c s
  | .raise f, s => Machine.raise f s
  | .drop, s => { s with wdrop := true }
  | .complete v, s => Machine.complete v s
  | .divisor i, s => { s with i := i, phase := .tdLoop }
  | .power acc sq e, s => { s with acc := acc, sq := sq, e := e, phase := .meLoop }
  | .reset, s => resetUnit s

/-- Two states agree on all that a transition other than a read depends on: PHASE, the operands, and in a loop its own hidden
registers (R35). -/
structure SameInputs (s s' : State) : Prop where
  phase : s'.phase = s.phase
  x0 : s'.x0 = s.x0
  x1 : s'.x1 = s.x1
  x2 : s'.x2 = s.x2
  divisor : s.phase = .tdLoop → s'.i = s.i
  power : s.phase = .meLoop → s'.acc = s.acc ∧ s'.sq = s.sq ∧ s'.e = s.e

theorem sameInputs_of_unit {s s' : State} (h : s'.unit = s.unit) : SameInputs s s' where
  phase := (congrArg State.phase h :)
  x0 := (congrArg State.x0 h :)
  x1 := (congrArg State.x1 h :)
  x2 := (congrArg State.x2 h :)
  divisor _ := (congrArg State.i h :)
  power _ := ⟨(congrArg State.acc h :), (congrArg State.sq h :), (congrArg State.e h :)⟩

/-- Where a loop begins or goes on, the effect sets the loop's own hidden registers, so the agreement lasts. -/
theorem SameInputs.apply {s s' : State} (h : SameInputs s s') (eff : Effect) :
    SameInputs (eff.apply s) (eff.apply s') := by
  obtain ⟨phase, x0, x1, x2, divisor, power⟩ := h
  cases eff with
  | rest | drop => exact ⟨phase, x0, x1, x2, divisor, power⟩
  | operand0 v => exact ⟨phase, rfl, x1, x2, divisor, power⟩
  | operand1 v => exact ⟨phase, x0, rfl, x2, divisor, power⟩
  | operand2 v => exact ⟨phase, x0, x1, rfl, divisor, power⟩
  | accept c => cases c <;> exact ⟨rfl, x0, x1, x2, nofun, nofun⟩
  | raise f | complete v => exact ⟨rfl, x0, x1, x2, nofun, nofun⟩
  | divisor i => exact ⟨rfl, x0, x1, x2, fun _ => rfl, nofun⟩
  | power acc sq e => exact ⟨rfl, x0, x1, x2, nofun, fun _ => ⟨rfl, rfl, rfl⟩⟩
  | reset => exact ⟨rfl, rfl, rfl, rfl, nofun, nofun⟩

/-! ### The effect of an engine step -/

/-- The TD_START step is chosen by the operand (R92). -/
theorem stepTdStart_effect (s : State) : ∃ eff : Effect, ∀ s', s'.x0 = s.x0 → stepTdStart s' = .next (eff.apply s') :=
  ⟨if s.x0 < 2#64 then .complete (boolResult false) else if s.x0 = 2#64 then .complete (boolResult true)
    else if bit0 s.x0 = false then .complete (boolResult false) else .divisor 3#64,
    fun s' x0 => by simp only [stepTdStart, operandN, x0]; split_ifs <;> simp [Effect.apply, complete, x0]⟩

/-- The TD_LOOP step is chosen by the operand and a divisor that is not 0 (R93). -/
theorem stepTdLoop_effect {s : State} (hi : s.i ≠ 0#64) : ∃ eff : Effect, ∀ s',
    s'.phase = .tdLoop → s'.x0 = s.x0 → s'.i = s.i → stepTdLoop s' = .next (eff.apply s') :=
  ⟨if exceeds (product s.i s.i) s.x0 then .complete (boolResult true)
    else if remainder (zext128 s.x0) s.i = 0#64 then .complete (boolResult false) else .divisor (nextDivisor s.i),
    fun s' phase x0 i => by
      simp only [stepTdLoop, operandN, x0, i, withRemainder_of_ne hi]
      split_ifs <;> simp [Effect.apply, complete, phase, x0]⟩

/-- The ME_START step is chosen by the three operands (R112). -/
theorem stepMeStart_effect (s : State) : ∃ eff : Effect, ∀ s', s'.x0 = s.x0 → s'.x1 = s.x1 → s'.x2 = s.x2 →
    stepMeStart s' = .next (eff.apply s') :=
  ⟨if s.x2 = 0#64 then .raise .modZero else if s.x2 = 1#64 then .complete 0#64
    else .power 1#64 (remainder (zext128 s.x0) s.x2) s.x1,
    fun s' x0 x1 x2 => by
      simp only [stepMeStart, operandModulus, operandBase, operandExp, x0, x1, x2]
      split_ifs <;> simp [Effect.apply, complete, raise, x0, x1, x2]⟩

/-- The ME_LOOP step is chosen by the modulus, ACC, SQ and E; it needs a modulus that is not 0 unless it completes (R113). -/
theorem stepMeLoop_effect {s : State} (hm : s.e = 0#64 ∨ s.x2 ≠ 0#64) : ∃ eff : Effect, ∀ s',
    s'.phase = .meLoop → s'.x2 = s.x2 → s'.acc = s.acc → s'.sq = s.sq → s'.e = s.e →
      stepMeLoop s' = .next (eff.apply s') := by
  by_cases zero : s.e = 0#64
  · exact ⟨.complete s.acc, fun s' _ _ acc _ e => by simp only [stepMeLoop, acc, e, if_pos zero]; rfl⟩
  · have ne : s.x2 ≠ 0#64 := hm.resolve_left zero
    refine ⟨.power (if bit0 s.e then remainder (product s.acc s.sq) s.x2 else s.acc) (remainder (product s.sq s.sq) s.x2)
      (shiftRight1 s.e), fun s' phase x2 acc sq e => ?_⟩
    simp only [stepMeLoop, operandModulus, x2, acc, sq, e, if_neg zero, withRemainder_of_ne ne]
    simp [Effect.apply, phase, x2]

/-- An engine step that answers is one effect, chosen by the inputs. -/
theorem engineStep_effect {s t : State} (h : engineStep s = .next t) :
    ∃ eff : Effect, ∀ s', SameInputs s s' → engineStep s' = .next (eff.apply s') := by
  cases hp : s.phase with
  | idle => exact ⟨.rest, fun s' same => engineStep_of_idle (same.phase.trans hp)⟩
  | faulted => exact ⟨.rest, fun s' same => engineStep_of_faulted (same.phase.trans hp)⟩
  | tdStart =>
    obtain ⟨eff, heff⟩ := stepTdStart_effect s
    exact ⟨eff, fun s' same => (engineStep_of_tdStart (same.phase.trans hp)).trans (heff s' same.x0)⟩
  | tdLoop =>
    rw [engineStep_of_tdLoop hp] at h
    obtain ⟨eff, heff⟩ := stepTdLoop_effect (mt (toNat_eq_zero_iff s.i).1 (stepTdLoop_next_ne h))
    exact ⟨eff, fun s' same => (engineStep_of_tdLoop (same.phase.trans hp)).trans
      (heff s' (same.phase.trans hp) same.x0 (same.divisor hp))⟩
  | meStart =>
    obtain ⟨eff, heff⟩ := stepMeStart_effect s
    exact ⟨eff, fun s' same => (engineStep_of_meStart (same.phase.trans hp)).trans (heff s' same.x0 same.x1 same.x2)⟩
  | meLoop =>
    have answers : s.e = 0#64 ∨ s.x2 ≠ 0#64 := by
      rw [or_iff_not_imp_right, not_not, toNat_eq_zero_iff, toNat_eq_zero_iff]
      intro zero
      rcases stepMeLoop_zero s zero with ⟨he, -⟩ | ⟨-, stops⟩
      · exact he
      · cases stops.symm.trans ((engineStep_of_meLoop hp).symm.trans h)
    obtain ⟨eff, heff⟩ := stepMeLoop_effect answers
    refine ⟨eff, fun s' same => ?_⟩
    obtain ⟨acc, sq, e⟩ := same.power hp
    exact (engineStep_of_meLoop (same.phase.trans hp)).trans (heff s' (same.phase.trans hp) same.x2 acc sq e)

/-! ### The effect of a write -/

/-- What a write does while IDLE is chosen by its index and its value (R53 to R55). -/
theorem writeIdle_effect (loc : Loc) (v : Word) : ∃ eff : Effect, ∀ s, writeIdle loc v s = eff.apply s := by
  cases loc with
  | op0 => exact ⟨.operand0 v, fun _ => rfl⟩
  | op1 => exact ⟨.operand1 v, fun _ => rfl⟩
  | op2 => exact ⟨.operand2 v, fun _ => rfl⟩
  | cmd =>
    cases hv : decodeC v with
    | ok c => exact ⟨.accept c, fun s => by rw [writeIdle, command, hv]; rfl⟩
    | error e => exact ⟨.raise .illegalCmd, fun s => by rw [writeIdle, command, hv]; rfl⟩
  | status | res | cause | reserved => exact ⟨.rest, fun _ => rfl⟩

/-- A write is one effect, chosen by PHASE, its index and its value (R52). -/
theorem memWrite_effect (loc : Loc) (v : Word) (p : Phase) :
    ∃ eff : Effect, ∀ s, s.phase = p → memWrite loc v s = eff.apply s := by
  rcases phase_cases p with idle | faulted | busy
  · obtain ⟨eff, heff⟩ := writeIdle_effect loc v
    exact ⟨eff, fun s hp => (writeGate_idle (hp.trans idle)).trans (heff s)⟩
  · exact ⟨.rest, fun s hp => writeGate_faulted (hp.trans faulted)⟩
  · exact ⟨.drop, fun s hp => writeGate_busy ((congrArg Phase.busy hp).trans busy)⟩

/-! ### The effect of a step -/

/-- The transition of a turn, or of the engine when no turn is left, on the state without that turn (R14; log 2). -/
def transition (turn : Option Turn) (s : State) : Host.Outcome State Fault Refusal :=
  match turn with
  | none | some .engine => engineStep s
  | some (.host w) => exec (decodeT w) s
  | some .reset => .next (resetUnit s)

/-- A step is the transition of its first turn. -/
theorem step_eq_transition (s : State) : step s = transition s.pending.head? (s.withTurns s.pending.tail) := by
  cases turns : s.pending with
  | nil =>
    rw [step_of_no_turn turns]
    exact congrArg engineStep (congrArg s.withTurns turns)
  | cons turn rest =>
    rw [step, nextTurn_cons turns]
    cases turn <;> rfl

theorem step_withTurns_cons (turn : Turn) (rest : List Turn) (s : State) :
    step (s.withTurns (turn :: rest)) = transition (some turn) (s.withTurns rest) := step_eq_transition _

/-- A read is answered and changes nothing (R51). -/
theorem transition_read {turn : Turn} (h : turn.isRead = true) :
    ∃ loc, ∀ s, transition (some turn) s = .next (answer (memRead loc s) s) := by
  cases turn with
  | engine | reset => cases h
  | host w =>
    have read : tWe w = false := by simpa [Turn.isRead] using h
    refine ⟨Loc.ofIndex (tIdx w), fun s => ?_⟩
    rw [transition, decodeT, read]
    exact exec_rd _ _ s

/-- Every other transition that answers is one effect, chosen by the inputs. -/
theorem transition_effect {turn : Option Turn} {s t : State} (h : transition turn s = .next t)
    (notRead : turn.any Turn.isRead = false) :
    ∃ eff : Effect, ∀ s', SameInputs s s' → transition turn s' = .next (eff.apply s') := by
  rcases turn with - | w | - | -
  · exact engineStep_effect h
  · have write : tWe w = true := by simpa [Turn.isRead] using notRead
    obtain ⟨eff, heff⟩ := memWrite_effect (Loc.ofIndex (tIdx w)) (tData w) s.phase
    refine ⟨eff, fun s' same => ?_⟩
    rw [transition, decodeT, write, ← heff s' same.phase]
    exact exec_wr _ _ s'
  · exact engineStep_effect h
  · exact ⟨.reset, fun _ _ => rfl⟩

/-- A run of one step more is a step and then the run. -/
theorem run_succ_cases {k : Nat} {s t : State} (h : run (k + 1) s = .next t) :
    ∃ u, step s = .next u ∧ run k u = .next t := by
  rw [run] at h
  split at h
  · exact ⟨_, ‹_›, h⟩
  · cases h
  · cases h

/-! ### What no effect disturbs -/

theorem Effect.apply_withTurns (eff : Effect) (s : State) (ts : List Turn) :
    eff.apply (s.withTurns ts) = (eff.apply s).withTurns ts := by
  cases eff <;> rfl

theorem Effect.apply_answer (eff : Effect) (v : Word) (s : State) :
    eff.apply (answer v s) = answer v (eff.apply s) := by
  cases eff <;> rfl

/-- What an effect makes of the unit depends on the unit alone. -/
theorem Effect.apply_unit (eff : Effect) {s s' : State} (h : s'.unit = s.unit) :
    (eff.apply s').unit = (eff.apply s).unit := by
  have unit_apply (r : State) : (eff.apply r).unit = eff.apply r.unit := by cases eff <;> rfl
  rw [unit_apply, unit_apply, h]

end Sys2Proof.Machine
end

section
/-! PROOFS. What the order and the reads of a schedule do not change (20_memory.md R51, R56, R65), and what the host never
sees (10_state.md R35). -/

namespace Sys2Proof.Machine

/-! ### Reads -/

/-- The schedule without its reads. -/
def withoutReads (ts : List Turn) : List Turn := ts.filter fun x => !x.isRead

theorem withoutReads_cons_read {turn : Turn} (h : turn.isRead = true) (ts : List Turn) :
    withoutReads (turn :: ts) = withoutReads ts := by simp [withoutReads, h]

theorem withoutReads_cons_other {turn : Turn} (h : turn.isRead = false) (ts : List Turn) :
    withoutReads (turn :: ts) = turn :: withoutReads ts := by simp [withoutReads, h]

/-- Two states with the same unit run into states with the same unit, one under a schedule and the other under that schedule
without its reads. -/
theorem run_withoutReads (ts : List Turn) {s s' t : State} (same : s'.unit = s.unit)
    (h : run ts.length (s.withTurns ts) = .next t) :
    ∃ t', run (withoutReads ts).length (s'.withTurns (withoutReads ts)) = .next t' ∧ t'.unit = t.unit := by
  induction ts generalizing s s' with
  | nil => cases h; exact ⟨_, rfl, same⟩
  | cons turn ts ih =>
    obtain ⟨u, hu, hrun⟩ := run_succ_cases h
    rw [step_withTurns_cons] at hu
    cases read : turn.isRead with
    | true =>
      obtain ⟨loc, answers⟩ := transition_read read
      cases (answers _).symm.trans hu
      rw [withoutReads_cons_read read]
      exact ih (s := answer (memRead loc s) s) same (memRead_withTurns loc s ts ▸ hrun)
    | false =>
      obtain ⟨eff, heff⟩ := transition_effect hu read
      cases (heff _ (sameInputs_of_unit rfl)).symm.trans hu
      rw [Effect.apply_withTurns] at hrun
      obtain ⟨t', ht', unit⟩ := ih (eff.apply_unit same) hrun
      have hstep : step (s'.withTurns (turn :: withoutReads ts)) = .next ((eff.apply s').withTurns (withoutReads ts)) := by
        rw [step_withTurns_cons, heff _ (sameInputs_of_unit (by exact same)), Effect.apply_withTurns]
      rw [withoutReads_cons_other read]
      exact ⟨t', (run_succ _ hstep).trans ht', unit⟩

/-- Settles O51: a read changes nothing of the unit, and every other turn has the same effect in both runs. -/
theorem readsDisturbNothing : Obligations.ReadsDisturbNothing := fun _ _ ts => run_withoutReads ts rfl

/-! ### The hidden registers -/

/-- The state with other values in the hidden registers. -/
def State.withHidden (s : State) (acc sq e i : Word) : State := { s with acc := acc, sq := sq, e := e, i := i }

/-- What a read answers does not depend on the hidden registers (R35, R51). -/
theorem memRead_withHidden (loc : Loc) (s : State) (acc sq e i : Word) :
    memRead loc (s.withHidden acc sq e i) = memRead loc s := by
  cases loc <;> rfl

/-- An effect carries no hidden register into a visible element. -/
theorem Effect.apply_withHidden (eff : Effect) (s : State) (acc sq e i : Word) :
    ∃ acc' sq' e' i', eff.apply (s.withHidden acc sq e i) = (eff.apply s).withHidden acc' sq' e' i' := by
  cases eff <;> exact ⟨_, _, _, _, rfl⟩

/-- Two states that no host can tell apart: they differ in hidden registers only, and in a loop not in that loop's own. -/
def Indistinguishable (s s' : State) : Prop :=
  SameInputs s s' ∧ ∃ acc sq e i, s' = s.withHidden acc sq e i

theorem Indistinguishable.withTurns {s s' : State} (h : Indistinguishable s s') (ts : List Turn) :
    Indistinguishable (s.withTurns ts) (s'.withTurns ts) := by
  obtain ⟨same, acc, sq, e, i, rfl⟩ := h
  exact ⟨{ same with }, acc, sq, e, i, rfl⟩

theorem Indistinguishable.answer {s s' : State} (h : Indistinguishable s s') (v : Word) :
    Indistinguishable (answer v s) (answer v s') := by
  obtain ⟨same, acc, sq, e, i, rfl⟩ := h
  exact ⟨{ same with }, acc, sq, e, i, rfl⟩

theorem Indistinguishable.apply {s s' : State} (h : Indistinguishable s s') (eff : Effect) :
    Indistinguishable (eff.apply s) (eff.apply s') := by
  obtain ⟨same, acc, sq, e, i, rfl⟩ := h
  exact ⟨same.apply eff, eff.apply_withHidden s acc sq e i⟩

/-- A transition out of one of them has its like out of the other. -/
theorem transition_indistinguishable {turn : Option Turn} {s s' t : State} (h : Indistinguishable s s')
    (ht : transition turn s = .next t) : ∃ t', transition turn s' = .next t' ∧ Indistinguishable t t' := by
  cases read : turn.any Turn.isRead with
  | true =>
    obtain ⟨turn, rfl, isRead⟩ : ∃ x, turn = some x ∧ x.isRead = true := (Option.any_eq_true _ _).1 read
    obtain ⟨loc, answers⟩ := transition_read isRead
    cases (answers s).symm.trans ht
    refine ⟨_, answers s', ?_⟩
    have sameAnswer : memRead loc s' = memRead loc s := by
      obtain ⟨-, acc, sq, e, i, rfl⟩ := h
      exact memRead_withHidden loc s acc sq e i
    rw [sameAnswer]
    exact h.answer _
  | false =>
    obtain ⟨eff, heff⟩ := transition_effect ht read
    cases (heff s (sameInputs_of_unit rfl)).symm.trans ht
    have ⟨same, _⟩ := h
    exact ⟨_, heff s' same, h.apply eff⟩

/-- So does a step: the two have the same schedule. -/
theorem step_indistinguishable {s s' t : State} (h : Indistinguishable s s') (ht : step s = .next t) :
    ∃ t', step s' = .next t' ∧ Indistinguishable t t' := by
  have turns : s'.pending = s.pending := by
    obtain ⟨-, acc, sq, e, i, rfl⟩ := h
    rfl
  rw [step_eq_transition] at ht
  rw [step_eq_transition, turns]
  exact transition_indistinguishable (h.withTurns _) ht

theorem run_indistinguishable (k : Nat) {s s' t : State} (h : Indistinguishable s s') (ht : run k s = .next t) :
    ∃ t', run k s' = .next t' ∧ Indistinguishable t t' := by
  induction k generalizing s s' with
  | zero => cases ht; exact ⟨s', run_zero s', h⟩
  | succ k ih =>
    obtain ⟨u, hu, hrun⟩ := run_succ_cases ht
    obtain ⟨u', hu', hsim⟩ := step_indistinguishable h hu
    obtain ⟨t', ht', hend⟩ := ih hsim hrun
    exact ⟨t', (run_succ k hu').trans ht', hend⟩

/-- Settles O52: outside the loops the two states cannot be told apart, and no step makes a difference. -/
theorem hiddenRegistersNeverShow : Obligations.HiddenRegistersNeverShow := by
  intro s t acc sq e i k notTd notMe ht
  have start : Indistinguishable s (s.withHidden acc sq e i) :=
    ⟨⟨rfl, rfl, rfl, rfl, fun hp => absurd hp notTd, fun hp => absurd hp notMe⟩, acc, sq, e, i, rfl⟩
  obtain ⟨t', ht', -, acc', sq', e', i', rfl⟩ := run_indistinguishable k start ht
  exact ⟨_, ht', rfl⟩

/-! ### Host turns beside a running operation -/

/-- An effect that leaves the unit busy leaves WDROP as it is. -/
theorem Effect.apply_drop {eff : Effect} {s : State} (busy : (eff.apply s).busy = true) :
    eff.apply (Effect.drop.apply s) = Effect.drop.apply (eff.apply s) := by
  cases eff with
  | reset => cases busy
  | rest | operand0 | operand1 | operand2 | accept | raise | drop | complete | divisor | power => rfl

/-- While an operation goes on, no read shows its progress (R35, R51). -/
theorem memRead_engineStep {s u : State} (h : engineStep s = .next u) (hs : s.busy = true) (hu : u.busy = true)
    (loc : Loc) : memRead loc u = memRead loc s := by
  obtain ⟨x0, x1, x2, wdrop, -⟩ := engineStep_keeps h
  have x3 : u.x3 = s.x3 := by
    obtain ⟨kept | ⟨-, idle, -⟩, -⟩ := engineStep_writes h
    · exact kept
    · exact absurd idle (phase_of_busy hu).1
  obtain ⟨done, cause⟩ : u.done = s.done ∧ u.cause = s.cause := by
    rcases engineStep_control h with ⟨quiet, -⟩ | ⟨-, v, rfl⟩ | ⟨-, -, rfl⟩ | ⟨-, -, kept⟩
    · exact absurd hs (Bool.eq_false_iff.1 quiet)
    · cases hu
    · cases hu
    · exact kept
  have fault : u.faultBit = s.faultBit := by
    rw [faultBit_eq_decide, faultBit_eq_decide, decide_eq_false (phase_of_busy hu).2, decide_eq_false (phase_of_busy hs).2]
  cases loc with
  | op0 => exact x0
  | op1 => exact x1
  | op2 => exact x2
  | res => exact x3
  | cmd | reserved => rfl
  | status => rw [memRead, memRead, statusWord, statusWord, wdrop, fault, done, hs, hu]
  | cause => rw [memRead, memRead, causeWord, causeWord, cause]

/-- Settles O53: the engine's effect is the same on both sides; the host's is to set WDROP, which that effect leaves alone, or
to answer a read, which it leaves alone and which shows nothing of it. -/
theorem hostTurnCommutesWithEngineStep : Obligations.HostTurnCommutesWithEngineStep := by
  intro s u w rest busy he ubusy
  obtain ⟨eff, heff⟩ := engineStep_effect he
  cases (heff s (sameInputs_of_unit rfl)).symm.trans he
  have engine {r : State} (same : SameInputs s r) (ts : List Turn) :
      step (r.withTurns (.engine :: ts)) = .next ((eff.apply r).withTurns ts) := by
    rw [step_withTurns_cons, ← eff.apply_withTurns]
    exact heff _ { same with }
  have unchanged : SameInputs s s := sameInputs_of_unit rfl
  cases read : tWe w with
  | true =>
    have host {r : State} (hr : r.busy = true) (ts : List Turn) :
        step (r.withTurns (.host w :: ts)) = .next ((Effect.drop.apply r).withTurns ts) := by
      rw [step_withTurns_cons, transition, decodeT, read]
      exact congrArg Host.Outcome.next (writeGate_busy (s := r.withTurns ts) hr)
    have dropped : SameInputs s (Effect.drop.apply s) := { unchanged with }
    rw [run_succ 1 (host busy _), run_succ 0 (engine dropped _), run_succ 1 (engine unchanged _),
      run_succ 0 (host ubusy _), Effect.apply_drop ubusy]
  | false =>
    have host (r : State) (ts : List Turn) : step (r.withTurns (.host w :: ts)) =
        .next ((answer (memRead (Loc.ofIndex (tIdx w)) r) r).withTurns ts) := by
      rw [step_withTurns_cons, transition, decodeT, read, ← memRead_withTurns _ r ts]
      rfl
    have answered (v : Word) : SameInputs s (answer v s) := { unchanged with }
    rw [run_succ 1 (host s _), run_succ 0 (engine (answered _) _), run_succ 1 (engine unchanged _),
      run_succ 0 (host _ _), Effect.apply_answer, memRead_engineStep he busy ubusy]

end Sys2Proof.Machine
end

section
/-! PROOFS. The unit at rest and what stands around it: a quiescent unit and the end of a run (70_reset_and_hazards.md R150,
R159), the level outputs (60_exceptions.md R139), and the recommended bus wrapper (20_memory.md R60). -/

namespace Sys2Proof.Machine

/-- Settles O25: the outputs are the first three bits of STATUS. -/
theorem outputsMirrorStatus : Obligations.OutputsMirrorStatus := fun s =>
  ⟨statusWord_getLsbD s 0, statusWord_getLsbD s 1, statusWord_getLsbD s 2⟩

/-- Settles O35: what a reset step leaves. -/
theorem resetKeepsHostSide : Obligations.ResetKeepsHostSide := fun _ _ turn => ⟨_, step_reset turn, rfl, rfl⟩

/-! ### A unit at rest -/

theorem quiescent_iff (s : State) : s.quiescent = true ↔ s.phase = .idle ∨ s.phase = .faulted := by
  rw [State.quiescent, State.busy]
  cases s.phase <;> simp

theorem engineStep_of_quiescent {s : State} (h : s.quiescent = true) : engineStep s = .next s :=
  ((quiescent_iff s).1 h).elim engineStep_of_idle engineStep_of_faulted

/-- Settles O55: taking the engine's turn off the schedule leaves the unit quiescent, and there the engine does nothing. -/
theorem quiescentUnitRests : Obligations.QuiescentUnitRests := by
  intro s u quiet next
  have engine := step_engine next
  obtain ⟨ts, rfl⟩ := engineNext_withTurns next
  exact ⟨engine.trans (engineStep_of_quiescent quiet), unit_withTurns s ts⟩

/-! ### The end of a run -/

theorem isEngine_iff (t : Turn) : t.isEngine = true ↔ t = .engine := by
  cases t <;> simp [Turn.isEngine]

/-- The end of a run, by its schedule and PHASE (R159). -/
theorem ended_iff (s : State) :
    s.ended = true ↔ (∀ t ∈ s.pending, t = Turn.engine) ∧ (s.phase = .idle ∨ s.phase = .faulted) := by
  rw [State.ended, Bool.and_eq_true, quiescent_iff, State.hostDone, List.all_eq_true]
  simp only [isEngine_iff]

/-- A run that ended, ended well iff it left neither a fault nor a dropped write (R159). -/
theorem endedWell_iff (s : State) : s.endedWell = true ↔ s.ended = true ∧ s.phase = .idle ∧ s.wdrop = false := by
  have noFault (ended : s.ended = true) : s.faultBit = false ↔ s.phase = .idle := by
    obtain ⟨-, idle | faulted⟩ := (ended_iff s).1 ended
    · simp [faultBit_eq_decide, idle]
    · simp [faultBit_eq_decide, faulted]
  rw [State.endedWell, Bool.and_eq_true, Bool.and_eq_true, Bool.not_eq_true', Bool.not_eq_true', and_assoc]
  exact and_congr_right fun ended => and_congr_left' (noFault ended)

/-- After its end a run changes nothing but the engine turns left on the schedule (R159). -/
theorem run_of_ended (k : Nat) {s : State} (h : s.ended = true) :
    ∃ ts, run k s = .next (s.withTurns ts) ∧ (s.withTurns ts).ended = true := by
  induction k generalizing s with
  | zero => exact ⟨s.pending, rfl, h⟩
  | succ k ih =>
    obtain ⟨hstep, ended⟩ := step_ended h
    obtain ⟨ts, hrun, hend⟩ := ih ended
    exact ⟨ts, (run_succ k hstep).trans hrun, hend⟩

/-- Settles O57: the two ends by their definitions, and the run that goes on after them. -/
theorem endedRunRests : Obligations.EndedRunRests := by
  intro s
  refine ⟨ended_iff s, endedWell_iff s, fun h k => ?_⟩
  obtain ⟨ts, hrun, ended⟩ := run_of_ended k h
  exact ⟨_, hrun, rfl, rfl, ended⟩

/-! ### The recommended wrapper -/

/-- An access of eight bytes at the offset of an index reaches that index (R60). -/
theorem recommendedWrapper_at_index {base : Nat} (aligned : 8 ∣ base) (loc : Loc) {write : Bool} {bytes : List (BitVec 8)}
    (whole : write = true → bytes.length = 8) :
    recommendedWrapper base ⟨write, base + 8 * loc.index.toNat, 8, bytes⟩ =
      some (tWord write loc (if write then BitVec.ofNat 64 (littleEndian bytes) else 0#64)) := by
  have index := loc.index.isLt
  have offset : base + 8 * loc.index.toNat - base = 8 * loc.index.toNat := Nat.add_sub_cancel_left ..
  rw [recommendedWrapper, if_pos]
  · rw [offset, Nat.mul_div_cancel_left _ (by omega), BitVec.ofNat_toNat, BitVec.setWidth_eq, Loc.ofIndex_index]
  · dsimp only
    exact ⟨by omega, by omega, by omega, by omega, rfl, whole⟩

/-- Settles O56: the eight accesses of an aligned base, and the refusal of all that fail one of the wrapper's checks. -/
theorem recommendedWrapperMap : Obligations.RecommendedWrapperMap := by
  refine ⟨fun base loc bytes aligned whole => ⟨?_, ?_⟩, fun base a refused => ?_⟩
  · exact recommendedWrapper_at_index aligned loc nofun
  · exact recommendedWrapper_at_index aligned loc fun _ => whole
  · rw [recommendedWrapper, if_neg]
    rintro ⟨above, below, natural, offset, size, whole⟩
    rcases refused with h | h | h | h | h | ⟨write, h⟩
    · exact h size
    · exact h natural
    · omega
    · omega
    · exact h offset
    · exact h (whole write)

end Sys2Proof.Machine
end
